-- ==== Sys2Proof/Word.lean ====
section
/-!
DEFINITION. The word and byte of the core (00_scope.md rule R5, 10_state.md rule R10).
-/

namespace Sys2Proof

/-- "A Word is an unsigned integer in 0..65535" (R5): the unit of memory, registers, stack and instruction stream. -/
abbrev Word := BitVec 16

/-- A byte 0..255: the unit of the I/O boundary (R4, IO_BITS) and of the loader's image file (R34). -/
abbrev Byte := BitVec 8

end Sys2Proof
end

