-- ==== Sys2Proof/Syntax.lean ====
section
/-!
DEFINITION. Instructions as data: one constructor per row of spec/opcode_table.json (30_encoding.md rule R55), operand
words sorted into the three bands of rule R53.
-/

namespace Sys2Proof

/-- An operand word by the band it lies in (R53). The decoder sorts a raw word once; what a band does depends on the
operand's kind S, D, W or T (R52) and is decided where the instruction executes. -/
inductive Operand where
  /-- Band L, a literal: `0 <= w <= 32767`. -/
  | lit (w : Word)
  /-- Band R, a register encoding: the raw word `32768 + i`. -/
  | reg (i : Fin 8)
  /-- Band H: `32776 <= w <= 65535`. -/
  | high (w : Word)
deriving DecidableEq, Repr

/-- The 22 instruction kinds with their operands, named by position as in R51 (`a`, `b`, `c`). -/
inductive Instr where
  | halt
  | set  (a b : Operand)
  | push (a : Operand)
  | pop  (a : Operand)
  | eq   (a b c : Operand)
  | gt   (a b c : Operand)
  | jmp  (a : Operand)
  | jt   (a b : Operand)
  | jf   (a b : Operand)
  | add  (a b c : Operand)
  | mult (a b c : Operand)
  | mod  (a b c : Operand)
  | and  (a b c : Operand)
  | or   (a b c : Operand)
  | not  (a b : Operand)
  | rmem (a b : Operand)
  | wmem (a b : Operand)
  | call (a : Operand)
  | ret
  | out  (a : Operand)
  /-- `in` (opcode 20): its mnemonic is a word of Lean's. -/
  | inp  (a : Operand)
  | noop
deriving DecidableEq, Repr

/-- The operands of an instruction in the order of its words a, b, c (R50). -/
def Instr.operands : Instr → List Operand
  | .halt | .ret | .noop => []
  | .push a | .pop a | .jmp a | .call a | .out a | .inp a => [a]
  | .set a b | .jt a b | .jf a b | .not a b | .rmem a b | .wmem a b => [a, b]
  | .eq a b c | .gt a b c | .add a b c | .mult a b c | .mod a b c | .and a b c | .or a b c => [a, b, c]

end Sys2Proof
end

