-- ==== Sys2Proof/WellFormed.lean ====
section
/-!
DEFINITION. Which instructions stand for words: every operand lies in its own band (30_encoding.md rule R53). There is
no other restriction: "Operand words have no illegal encoding at decode time" (R57).
-/

namespace Sys2Proof

/-- The word under a `lit` is in band L, the word under a `high` in band H; a register index is below 8 by its type. -/
def Operand.wf : Operand → Bool
  | .lit w => decide (w.toNat ≤ 32767)
  | .reg _ => true
  | .high w => decide (32776 ≤ w.toNat)

/-- An instruction is well formed when each of its operands is. -/
def Instr.wf (i : Instr) : Bool := i.operands.all Operand.wf

end Sys2Proof
end

