-- ==== Sys2Proof/Decode.lean ====
section
/-!
DEFINITION. The decoder and the encoder (30_encoding.md rules R50 to R57, 40_execution_core.md rule R79). An instruction
is an opcode word and 0 to 3 operand words; the opcode word alone fixes how many.
-/

namespace Sys2Proof

/-- The band of a raw operand word (R53, and `IsReg` of R71): total on all 65536 words. -/
def Operand.ofWord (w : Word) : Operand :=
  if w.toNat ≤ 32767 then .lit w
  else if w.toNat ≤ 32775 then .reg (Fin.ofNat 8 (w.toNat - 32768))
  else .high w

/-- The raw word of an operand (R11: register i is the raw word `32768 + i`). -/
def Operand.toWord : Operand → Word
  | .lit w => w
  | .reg i => BitVec.ofNat 16 (32768 + i.val)
  | .high w => w

/-- The four formats of R51, each holding the instruction it makes of its operand words. -/
inductive Format where
  | f0 (i : Instr)
  | f1 (mk : Operand → Instr)
  | f2 (mk : Operand → Operand → Instr)
  | f3 (mk : Operand → Operand → Operand → Instr)

/-- The opcode map of R55: the opcode word is compared whole with 0..21, and every other word is illegal (R56, R79). -/
def formatOf (w : Word) : Option Format :=
  match w.toNat with
  | 0 => some (.f0 .halt)
  | 1 => some (.f2 .set)
  | 2 => some (.f1 .push)
  | 3 => some (.f1 .pop)
  | 4 => some (.f3 .eq)
  | 5 => some (.f3 .gt)
  | 6 => some (.f1 .jmp)
  | 7 => some (.f2 .jt)
  | 8 => some (.f2 .jf)
  | 9 => some (.f3 .add)
  | 10 => some (.f3 .mult)
  | 11 => some (.f3 .mod)
  | 12 => some (.f3 .and)
  | 13 => some (.f3 .or)
  | 14 => some (.f2 .not)
  | 15 => some (.f2 .rmem)
  | 16 => some (.f2 .wmem)
  | 17 => some (.f1 .call)
  | 18 => some (.f0 .ret)
  | 19 => some (.f1 .out)
  | 20 => some (.f1 .inp)
  | 21 => some (.f0 .noop)
  | _ => none

/-- Why the decoder makes no instruction of a list of words. -/
inductive Rejection where
  /-- The opcode word is in 22..65535 (R56). -/
  | illegalOpcode (w : Word)
  /-- The list ends before the instruction does. -/
  | truncated
deriving DecidableEq, Repr

/-- What decoding a list of words gives: an instruction and the words after it, or a rejection by name. -/
inductive Decoded where
  | instr (i : Instr) (rest : List Word)
  | rejected (why : Rejection)
deriving DecidableEq, Repr

/-- Fill a format's operands from the words that follow the opcode word, in the order a, b, c (R58). -/
def fillFormat : Format → List Word → Decoded
  | .f0 i, ws => .instr i ws
  | .f1 mk, a :: ws => .instr (mk (.ofWord a)) ws
  | .f2 mk, a :: b :: ws => .instr (mk (.ofWord a) (.ofWord b)) ws
  | .f3 mk, a :: b :: c :: ws => .instr (mk (.ofWord a) (.ofWord b) (.ofWord c)) ws
  | .f1 _, _ | .f2 _, _ | .f3 _, _ => .rejected .truncated

/-- Decode the instruction at the head of a list of words; total, with a name for every refusal. -/
def decode : List Word → Decoded
  | [] => .rejected .truncated
  | w :: ws =>
    match formatOf w with
    | none => .rejected (.illegalOpcode w)
    | some f => fillFormat f ws

/-- The opcode number of an instruction, the first column of R55. -/
def opcode : Instr → Nat
  | .halt => 0
  | .set _ _ => 1
  | .push _ => 2
  | .pop _ => 3
  | .eq _ _ _ => 4
  | .gt _ _ _ => 5
  | .jmp _ => 6
  | .jt _ _ => 7
  | .jf _ _ => 8
  | .add _ _ _ => 9
  | .mult _ _ _ => 10
  | .mod _ _ _ => 11
  | .and _ _ _ => 12
  | .or _ _ _ => 13
  | .not _ _ => 14
  | .rmem _ _ => 15
  | .wmem _ _ => 16
  | .call _ => 17
  | .ret => 18
  | .out _ => 19
  | .inp _ => 20
  | .noop => 21

/-- The words of an instruction (R50): its opcode word, then its operand words in the order a, b, c. -/
def encode (i : Instr) : List Word :=
  BitVec.ofNat 16 (opcode i) :: i.operands.map Operand.toWord

/-- The four words of an instruction whose bits are numbered from the first word's bit 0 up, `nbits` of them given and
the rest zero. -/
def tableWords (nbits w : Nat) : List Word :=
  let bits := w % 2 ^ nbits
  [BitVec.ofNat 16 bits, BitVec.ofNat 16 (bits >>> 16), BitVec.ofNat 16 (bits >>> 32), BitVec.ofNat 16 (bits >>> 48)]

/-- The instruction the decoder reads from a row of spec/opcode_table.json. -/
def decodeTableWord (nbits w : Nat) : Option Instr :=
  match decode (tableWords nbits w) with
  | .instr i _ => some i
  | .rejected _ => none

end Sys2Proof
end

