-- ==== Sys2Proof/Config.lean ====
section
/-!
DEFINITION. The implementation parameters of 00_scope.md rule R4. The spec leaves no result of an instruction open, so
there is no free value here: every parameter has the value R4 gives it.
-/

namespace Sys2Proof.Config

/-- VALUE_MOD (R4): the modulus of `add` and `mult`. -/
abbrev valueMod : Nat := 32768

/-- VALUE_MOD's mask (R4): the fifteen bits `not` keeps. -/
abbrev valueMask : Word := 0x7FFF

/-- MEM_CELLS (R4): cells 0..32767. -/
abbrev memCells : Nat := 32768

/-- NREGS (R4). -/
abbrev nregs : Nat := 8

/-- REG_BASE (R4): the raw word that denotes register 0. -/
abbrev regBase : Nat := 32768

/-- PC_RESET (R4). -/
abbrev pcReset : Word := 0

/-- REG_RESET (R4): the value of every register after reset, 0 by the spec's decision D5 (log entry 3). -/
abbrev regReset : Word := 0

/-- STACK_DEPTH (R4): the spec's one OPEN parameter (D6). `none` is its default, unbounded (log entry 7). -/
def stackDepth : Option Nat := none

/-- CR (R4): the byte that makes `in` read and drop one further byte. -/
abbrev carriageReturn : Byte := 13

end Sys2Proof.Config
end

