-- ==== Sys2Proof/Machine/State.lean ====
section
/-!
DEFINITION. The state of the core (10_state.md: "eight registers, the program counter, the stack, the memory, the run
state, the fault record and two latches"), and beside it, as plain data, what the host supplies and receives at the I/O
boundary (rules R21, R22), because the step takes nothing but the state (log entry 2).
-/

namespace Sys2Proof.Machine

/-- The memory as a list of bytes in canonical form: cell `a` (R30) is the byte at `2 * a`, its low half, and the byte
at `2 * a + 1`, its high half, the byte order of the image file (R34); an unlisted byte is 0 (R35). Only `readCell` and
`writeCell` of Ops.lean look inside, and they move whole cells (log entry 1). -/
abbrev Memory := List Host.Cell

/-- The run state (R17): "exactly two terminal states ... and one running state". -/
inductive RunState where
  | running
  | halted
  | faulted
deriving DecidableEq, Repr

/-- The seven fault kinds of 60_exceptions.md rule R200. A fault of the core is no fault of the model: raising one takes
a NEXT state (R206). -/
inductive FaultKind where
  | invalidMemory
  | invalidOpCode
  | invalidRegister
  | stackEmpty
  | readError
  | writeError
  | modByZero
deriving DecidableEq, Repr

/-- The fault record (R18): the kind, the address of the faulting instruction's opcode word, and that word, absent when
its own fetch failed. -/
structure FaultRecord where
  kind : FaultKind
  addr : Word
  opw : Option Word
deriving DecidableEq, Repr

/-- One answer of the input source to one request (R22): a byte, or failed, which end of input is too (D12). -/
inductive InAnswer where
  | byte (b : Byte)
  | failed
deriving DecidableEq, Repr

/-- One answer of the output sink to one byte presented (R21). -/
inductive OutAnswer where
  | accepted
  | failed
deriving DecidableEq, Repr

/-- The state. The first eight fields are the core's; the last three are the host's side of the I/O boundary. -/
structure State where
  /-- `x[0]` to `x[7]` (R10). -/
  regs : Vector Word 8
  /-- The program counter (R13): 0..32768. -/
  pc : Word
  /-- `stk` (R15), top first. -/
  stk : List Word
  /-- The 32768 cells (R30). -/
  mem : Memory
  /-- `run` (R17). -/
  run : RunState
  /-- `fault` (R18); `none` until a fault is raised. -/
  fault : Option FaultRecord
  /-- The instruction-address latch (R19). -/
  ia : Word
  /-- The opcode-word latch (R19). -/
  opw : Option Word
  /-- MODEL'S OWN: the answers the input source has still to give, in order; past the last one it never answers. -/
  inAnswers : List InAnswer
  /-- MODEL'S OWN: the sink's next answers, in order; past the last one it accepts every byte. -/
  outAnswers : List OutAnswer
  /-- The output trace (R21): the bytes the sink accepted, in program order. -/
  output : List Byte
deriving DecidableEq, Repr

/-- The core right after reset (R26), with the image of 32768 zeros and no answer from the host yet: a program is an
image, and an image is the host's to supply (`resetWith` in Ops.lean; log entry 4). -/
def State.reset : State where
  regs := Vector.replicate 8 Config.regReset
  pc := Config.pcReset
  stk := []
  mem := []
  run := .running
  fault := none
  ia := 0
  opw := none
  inAnswers := []
  outAnswers := []
  output := []

/-- Why there is no step. These are no faults of the core (those are `FaultKind`). -/
inductive Fault where
  /-- Raised by `nextInstr` when `run` is Halted: "no step is defined" (R83). Safe: the core has stopped too. -/
  | coreHalted
  /-- Raised by `nextInstr` when `run` is Faulted: "no step is defined" (R83). Safe: the core has stopped too. -/
  | coreFaulted
  /-- Raised by `in` (`waitForInput`) when its source has not answered: the step "is not enabled and nothing else can move"
  (93_implementation_defined.md U8). The state it stands in is the one before the instruction. Safe: a run stops where the
  core hangs, and a longer list of answers is another state (log entry 5). -/
  | waitingForInput
deriving DecidableEq, Repr

/-- Why the model gives a run no meaning. -/
inductive Refusal where
  /-- An arm of `exec` without a meaning would answer this; no arm does. Safe. -/
  | notModelled (mnemonic : String)
  /-- Raised by `push` and `call` under a finite STACK_DEPTH on a full stack: "the model must refuse the run" (R76,
  D6). Never under the default, unbounded. Safe. -/
  | stackDepthExceeded
deriving DecidableEq, Repr

end Sys2Proof.Machine
end

