-- ==== Sys2Proof/Machine/Ops.lean ====
section
/-!
DEFINITION. The named operations over registers, memory, stack, pc and I/O boundary, and fault entry: the primitives of
20_memory.md, 40_execution_core.md, 47_out_in.md and 60_exceptions.md that the instruction rules are written in.
-/

namespace Sys2Proof.Machine

/-- What a meaning answers. -/
abbrev Result := Host.Outcome State Fault Refusal

/-! ### Fault entry, and its absence of a return -/

/-- Fault entry (R206): `run` becomes Faulted and the record takes the kind and the two latches. Nothing is rolled back
(R207), nothing is pushed and pc is not redirected; there is no return from a fault (R209). -/
def faultEntry (k : FaultKind) (s : State) : State :=
  { s with run := .faulted, fault := some ⟨k, s.ia, s.opw⟩ }

/-- `raise K` (R206): the step ends in the faulted core. -/
def raise (k : FaultKind) (s : State) : Result := .next (faultEntry k s)

/-- The numeric code of a fault kind (R201). -/
def FaultKind.code : FaultKind → Nat
  | .invalidMemory => 1
  | .invalidOpCode => 2
  | .invalidRegister => 3
  | .stackEmpty => 4
  | .readError => 5
  | .writeError => 6
  | .modByZero => 7

/-- The `fault.kind` field as a number: 0 "while `run` is not Faulted" (R201). -/
def faultCode (s : State) : Nat :=
  match s.run, s.fault with
  | .faulted, some r => r.kind.code
  | _, _ => 0

/-- STATUS (R23): `run`, and the fault record while `run = Faulted`. -/
def status (s : State) : RunState × Option FaultRecord :=
  (s.run, if s.run = .faulted then s.fault else none)

/-! ### Registers -/

/-- `x[i]` (R10). -/
def getReg (i : Fin 8) (s : State) : Word := s.regs.get i

/-- `x[i] <- v` (R74): all 16 bits, and no other register changes. -/
def setReg (i : Fin 8) (v : Word) (s : State) : State := { s with regs := s.regs.set i v }

/-! ### Memory -/

/-- The byte at a key of the list; an unlisted byte is 0 (R35: "remaining cells are zero"). -/
def Memory.getByte : Memory → Nat → Byte
  | [], _ => 0#8
  | (k, b) :: rest, a => if k = a then b else Memory.getByte rest a

/-- A byte before the bytes of higher keys; a zero is not listed. -/
def Memory.consByte (a : Nat) (b : Byte) (m : Memory) : Memory := if b = 0#8 then m else (a, b) :: m

/-- Put a byte in its place. -/
def Memory.setByte : Memory → Nat → Byte → Memory
  | [], a, b => Memory.consByte a b []
  | (k, c) :: rest, a, b =>
    if k < a then (k, c) :: Memory.setByte rest a b
    else if k = a then Memory.consByte a b rest
    else Memory.consByte a b ((k, c) :: rest)

/-- The low half of a word, `w[7:0]` (R5). -/
def lowByte (w : Word) : Byte := w.extractLsb' 0 8

/-- The high half of a word, `w[15:8]`. -/
def highByte (w : Word) : Byte := w.extractLsb' 8 8

/-- `MemRead(a, 1)` (R6): the word in cell a. -/
def Memory.readCell (m : Memory) (a : Nat) : Word := m.getByte (2 * a + 1) ++ m.getByte (2 * a)

/-- `MemWrite(a, 1, v)` (R6): cell a becomes v. -/
def Memory.writeCell (m : Memory) (a : Nat) (v : Word) : Memory :=
  (m.setByte (2 * a) (lowByte v)).setByte (2 * a + 1) (highByte v)

/-- Strictly rising keys, each above `lo`, inside the 65536 bytes of the memory, and no zero listed. -/
def Memory.wfFrom : Nat → Memory → Bool
  | _, [] => true
  | lo, (k, b) :: rest => decide (lo ≤ k) && decide (k < 2 * Config.memCells) && decide (b ≠ 0#8) && Memory.wfFrom (k + 1) rest

/-- The canonical form: equal memories are equal lists. -/
def Memory.wf (m : Memory) : Bool := Memory.wfFrom 0 m

/-- The bytes of an image's words from cell a up (R34: low byte first), without the zeros. -/
def Memory.ofImage : Nat → List Word → Memory
  | _, [] => []
  | a, w :: ws => Memory.consByte (2 * a) (lowByte w) (Memory.consByte (2 * a + 1) (highByte w) (Memory.ofImage (a + 1) ws))

/-- Reset with a program image and the host's source and sink (R230, R231): the image fills memory from cell 0, cells
past it are 0 (R35), and nothing of any earlier state survives (D21). The occupied count is not used (R20, D18). -/
def resetWith (image : List Word) (ins : List InAnswer) (outs : List OutAnswer) : State :=
  { State.reset with mem := Memory.ofImage 0 (image.take Config.memCells), inAnswers := ins, outAnswers := outs }

/-- The bounds check on every load, store and pc target (R31, R32, R78): only 0..32767 names a cell. -/
def inBounds (a : Word) : Bool := decide (a.toNat ≤ 32767)

/-- `Load(a)` (R31); `none` is its InvalidMemory. -/
def load (a : Word) (s : State) : Option Word :=
  if inBounds a then some (s.mem.readCell a.toNat) else none

/-- Cell a holds v, every other cell is as before (R32). -/
def setCell (a v : Word) (s : State) : State := { s with mem := s.mem.writeCell a.toNat v }

/-- `Store(a, v)` (R32), which is the last statement of every rule that stores: InvalidMemory outside 0..32767, and then
no cell changes. -/
def store (a v : Word) (s : State) : Result :=
  if inBounds a then .next (setCell a v s) else raise .invalidMemory s

/-! ### Program counter -/

/-- `pc <- t`, unchecked. -/
def withPC (t : Word) (s : State) : State := { s with pc := t }

/-- `SetPC(t)` (R78): InvalidMemory above 32767, and then pc is unchanged. -/
def setPC (t : Word) (s : State) : Result :=
  if inBounds t then .next (withPC t s) else raise .invalidMemory s

/-! ### Stack -/

/-- The stack replaced. -/
def withStk (l : List Word) (s : State) : State := { s with stk := l }

/-- A push under a given STACK_DEPTH (R76): unbounded for `none`; under a finite depth a push onto a full stack has no
meaning (`none`), and the model refuses it. -/
def pushWithin : Option Nat → Word → State → Option State
  | none, v, s => some (withStk (v :: s.stk) s)
  | some depth, v, s => if s.stk.length < depth then some (withStk (v :: s.stk) s) else none

/-- `Push(v)` (R76) under the model's STACK_DEPTH. -/
def pushStk (v : Word) (s : State) : Option State := pushWithin Config.stackDepth v s

/-- `Pop()` (R77): the top entry and the state without it; `none` is its StackEmpty. -/
def popStk (s : State) : Option (Word × State) :=
  match s.stk with
  | [] => none
  | v :: rest => some (v, withStk rest s)

/-! ### I/O boundary -/

/-- The input answers replaced. -/
def withIns (l : List InAnswer) (s : State) : State := { s with inAnswers := l }

/-- What one IN transaction comes to (R22, R160). -/
inductive InResult where
  /-- The source answered a byte, now consumed. -/
  | got (b : Byte) (s : State)
  /-- The source answered failed. -/
  | failed (s : State)
  /-- The source has not answered. -/
  | waiting

/-- `InByte()` (R160): one request to the input source. -/
def inByte (s : State) : InResult :=
  match s.inAnswers with
  | [] => .waiting
  | .byte b :: rest => .got b (withIns rest s)
  | .failed :: rest => .failed (withIns rest s)

/-- An instruction whose request is not answered does not complete, and no other state changes (R22): its step is not
enabled ("stuck", 93_implementation_defined.md U8), so a run in which no answer comes has it as its last (R83). -/
def waitForInput : Result := .fault .waitingForInput

/-- The sink takes a byte: it is appended to the output trace (R161). -/
def acceptByte (b : Byte) (outs : List OutAnswer) (s : State) : State :=
  { s with output := s.output ++ [b], outAnswers := outs }

/-- The sink refuses a byte: the trace is unchanged (R161). -/
def rejectByte (outs : List OutAnswer) (s : State) : State := { s with outAnswers := outs }

/-- `OutByte(b)` (R161): one transaction with the output sink, WriteError if it answers failed. A sink whose listed
answers are used up accepts (log entry 6). -/
def outByte (b : Byte) (s : State) : Result :=
  match s.outAnswers with
  | [] => .next (acceptByte b [] s)
  | .accepted :: rest => .next (acceptByte b rest s)
  | .failed :: rest => raise .writeError (rejectByte rest s)

/-! ### Run state and latches -/

/-- `run <- Halted` (R100). -/
def halted (s : State) : State := { s with run := .halted }

/-- The start of a step (R82): `ia <- pc`, `opw <- absent`. -/
def beginStep (s : State) : State := { s with ia := s.pc, opw := none }

/-- `opw <- w` (R82). -/
def latchOpcode (w : Word) (s : State) : State := { s with opw := some w }

end Sys2Proof.Machine
end

