-- ==== Sys2Proof/Machine/Operands.lean ====
section
/-!
DEFINITION. What each operand kind S, D, W and T of 30_encoding.md rule R52 does with an operand word.
-/

namespace Sys2Proof.Machine

/-- `RegGet(w)` (R73): the register a raw word names; `none` is its InvalidRegister. -/
def regGet (w : Operand) (s : State) : Option Word :=
  match w with
  | .reg i => some (getReg i s)
  | .lit _ | .high _ => none

/-- Kind S, `Resolve(w)` (R72): a register's content, else the word itself, band H passing through (D7). One level: the
result is not resolved again. -/
def resolve (w : Operand) (s : State) : Word := (regGet w s).getD w.toWord

/-- Kind D, `RegSet(w, v)` (R74): a register write, InvalidRegister on any other word. -/
def regSet (w : Operand) (v : Word) (s : State) : Result :=
  match w with
  | .reg i => .next (setReg i v s)
  | .lit _ | .high _ => raise .invalidRegister s

/-- Kind W, `WriteThrough(w, v)` (R75): a register write in the register band, else a store at the raw word, whose bounds
check makes band H an InvalidMemory. -/
def writeThrough (w : Operand) (v : Word) (s : State) : Result :=
  match w with
  | .reg i => .next (setReg i v s)
  | .lit _ | .high _ => store w.toWord v s

/-- Kind T (R52): a jump to the raw word, which is never read through a register. -/
def jumpRaw (w : Operand) (s : State) : Result := setPC w.toWord s

/-- The cell a kind W destination stores to, if it stores: the raw word, when that is no register and in bounds. -/
def writeThroughAddress (w : Operand) : Option Word :=
  match w with
  | .reg _ => none
  | .lit _ | .high _ => if inBounds w.toWord then some w.toWord else none

end Sys2Proof.Machine
end

