-- ==== Sys2Proof/Machine/Alu.lean ====
section
/-!
DEFINITION. `add`, `mult`, `mod`, `and`, `or` and `not` (45_alu.md): exact on the operands' integers, narrowed as the
rule says and no further (R146).
-/

namespace Sys2Proof.Machine

/-- `(vb + vc) mod 32768` (R140): the exact sum, then the remainder. -/
def addWord (b c : Word) : Word := BitVec.ofNat 16 ((b.toNat + c.toNat) % Config.valueMod)

/-- `(vb * vc) mod 32768` (R141): the exact product, then the remainder. -/
def multWord (b c : Word) : Word := BitVec.ofNat 16 ((b.toNat * c.toNat) % Config.valueMod)

/-- `vb mod vc` for a non-zero vc (R142), not reduced modulo 32768 (C3). -/
def modWord (b c : Word) : Word := BitVec.ofNat 16 (b.toNat % c.toNat)

/-- `(~vb) & 0x7FFF` (R145). -/
def notWord (b : Word) : Word := ~~~b &&& Config.valueMask

/-- `add` (R140). -/
def execAdd (a b c : Operand) (s : State) : Result := regSet a (addWord (resolve b s) (resolve c s)) s

/-- `mult` (R141). -/
def execMult (a b c : Operand) (s : State) : Result := regSet a (multWord (resolve b s) (resolve c s)) s

/-- `mod` (R142): a zero divisor raises ModByZero before the destination is checked (D8, D9). -/
def execMod (a b c : Operand) (s : State) : Result :=
  if (resolve c s).toNat = 0 then raise .modByZero s
  else regSet a (modWord (resolve b s) (resolve c s)) s

/-- `and` (R143): 16 bits, no mask afterwards. -/
def execAnd (a b c : Operand) (s : State) : Result := regSet a (resolve b s &&& resolve c s) s

/-- `or` (R144): 16 bits, no mask afterwards. -/
def execOr (a b c : Operand) (s : State) : Result := regSet a (resolve b s ||| resolve c s) s

/-- `not` (R145). -/
def execNot (a b : Operand) (s : State) : Result := regSet a (notWord (resolve b s)) s

end Sys2Proof.Machine
end

