-- ==== Sys2Proof/Machine/Flags.lean ====
section
/-!
DEFINITION. "The core has no flags, condition codes or predicate registers" (10_state.md rule R16). What stands in their
place: the 0 or 1 that `eq` and `gt` write, and the test against zero that `jt` and `jf` make.
-/

namespace Sys2Proof.Machine

/-- The value of a comparison as a word, 1 or 0 (R120, R121). -/
def truthWord (p : Bool) : Word := if p then 1 else 0

/-- `vb == vc` on all 16 bits (R120, D13). -/
def eqWord (b c : Word) : Word := truthWord (decide (b.toNat = c.toNat))

/-- `vb > vc`, unsigned on all 16 bits (R121, D13). -/
def gtWord (b c : Word) : Word := truthWord (decide (c.toNat < b.toNat))

/-- The condition of `jt` and `jf` (R131, R132): every non-zero word is true. -/
def condTrue (c : Word) : Bool := decide (c.toNat ≠ 0)

end Sys2Proof.Machine
end

