-- ==== Sys2Proof/Machine/Compare.lean ====
section
/-!
DEFINITION. `eq` and `gt` (43_eq_gt.md): 0 or 1 through a write-through destination.
-/

namespace Sys2Proof.Machine

/-- `eq` (R120). -/
def execEq (a b c : Operand) (s : State) : Result := writeThrough a (eqWord (resolve b s) (resolve c s)) s

/-- `gt` (R121). -/
def execGt (a b c : Operand) (s : State) : Result := writeThrough a (gtWord (resolve b s) (resolve c s)) s

end Sys2Proof.Machine
end

