-- ==== Sys2Proof/Machine/Control.lean ====
section
/-!
DEFINITION. `jmp`, `jt`, `jf`, `call` and `ret` (44_jumps_calls.md). A target is an absolute cell address, checked when
the transfer executes (R135).
-/

namespace Sys2Proof.Machine

/-- `jmp` (R130): the target is resolved. -/
def execJmp (a : Operand) (s : State) : Result := setPC (resolve a s) s

/-- `jt` (R131): the target is raw, and looked at only if the jump is taken. -/
def execJt (a b : Operand) (s : State) : Result :=
  if condTrue (resolve a s) then jumpRaw b s else .next s

/-- `jf` (R132): the mirror image of `jt`. -/
def execJf (a b : Operand) (s : State) : Result :=
  if condTrue (resolve a s) then .next s else jumpRaw b s

/-- `call` (R133): pc, the address after the call, is pushed before the target is checked. -/
def execCall (a : Operand) (s : State) : Result :=
  match pushStk s.pc s with
  | none => .refused .stackDepthExceeded
  | some t => setPC (resolve a s) t

/-- `ret` (R134): the popped word is used as it is, and is gone even if it is no address. -/
def execRet (s : State) : Result :=
  match popStk s with
  | none => raise .stackEmpty s
  | some (v, t) => setPC v t

end Sys2Proof.Machine
end

