-- ==== Sys2Proof/Machine/HaltNoop.lean ====
section
/-!
DEFINITION. `halt` and `noop` (41_halt_noop.md). In every meaning the instruction's words have been fetched: pc already
points past them and the latches hold its address and opcode word (R58, R82).
-/

namespace Sys2Proof.Machine

/-- `halt` (R100): the run ends cleanly; nothing is written to the sink (D10). -/
def execHalt (s : State) : Result := .next (halted s)

/-- `noop` (R101): no effect but the fetch's. -/
def execNoop (s : State) : Result := .next s

end Sys2Proof.Machine
end

