-- ==== Sys2Proof/Machine/InOut.lean ====
section
/-!
DEFINITION. `out` and `in` (47_out_in.md), the only instructions that touch the I/O boundary.
-/

namespace Sys2Proof.Machine

/-- `out` (R162): the low 8 bits of the resolved value. -/
def execOut (a : Operand) (s : State) : Result := outByte (lowByte (resolve a s)) s

/-- `in` (R163): one byte into a register, zero-extended; after a 13 one further byte is read and dropped, and the
register still receives 13 (C4, D11). The destination is checked last (D9). -/
def execInp (a : Operand) (s : State) : Result :=
  match inByte s with
  | .waiting => waitForInput
  | .failed t => raise .readError t
  | .got b t =>
    if b = Config.carriageReturn then
      match inByte t with
      | .waiting => waitForInput
      | .failed u => raise .readError u
      | .got _ u => regSet a (b.setWidth 16) u
    else regSet a (b.setWidth 16) t

end Sys2Proof.Machine
end

