-- ==== Sys2Proof/Machine/MemAccess.lean ====
section
/-!
DEFINITION. `rmem` and `wmem` (46_rmem_wmem.md): the effective address is the resolved operand (R152).
-/

namespace Sys2Proof.Machine

/-- `rmem` (R150): the load comes before the destination is checked (D9). -/
def execRmem (a b : Operand) (s : State) : Result :=
  match load (resolve b s) s with
  | none => raise .invalidMemory s
  | some v => regSet a v s

/-- `wmem` (R151): both operands are resolved; it never writes a register. -/
def execWmem (a b : Operand) (s : State) : Result := store (resolve a s) (resolve b s) s

end Sys2Proof.Machine
end

