-- ==== Sys2Proof/Machine/SetPushPop.lean ====
section
/-!
DEFINITION. `set`, `push` and `pop` (42_set_push_pop.md).
-/

namespace Sys2Proof.Machine

/-- `set` (R110): the resolved source, all 16 bits, into a register. -/
def execSet (a b : Operand) (s : State) : Result := regSet a (resolve b s) s

/-- `push` (R111): the resolved source on top of the stack. -/
def execPush (a : Operand) (s : State) : Result :=
  match pushStk (resolve a s) s with
  | none => .refused .stackDepthExceeded
  | some t => .next t

/-- `pop` (R112): the top entry leaves the stack before the destination is looked at. -/
def execPop (a : Operand) (s : State) : Result :=
  match popStk s with
  | none => raise .stackEmpty s
  | some (v, t) => writeThrough a v t

end Sys2Proof.Machine
end

