-- ==== Sys2Proof/Machine/Fetch.lean ====
section
/-!
DEFINITION. Fetching the next instruction: `Fetch` and the part of `Step` before `Execute` (40_execution_core.md rules
R70, R80, R82, R83), word by word, with the decoder's opcode map.
-/

namespace Sys2Proof.Machine

/-- What fetching comes to: an instruction and the state to execute it in, or the step's end. -/
inductive Fetched where
  | ready (i : Instr) (s : State)
  | ended (r : Result)

/-- `Fetch()` (R70): the cell at pc, and pc one further, unchecked (it may become 32768); `none` is the InvalidMemory of
the load, and then pc is unchanged. -/
def fetch (s : State) : Option (Word × State) :=
  match load s.pc s with
  | none => none
  | some w => some (w, withPC (s.pc + 1) s)

/-- Fetch a word and go on with it, or raise the InvalidMemory of `Fetch`. -/
def fetchThen (s : State) (k : Word → State → Fetched) : Fetched :=
  match fetch s with
  | none => .ended (raise .invalidMemory s)
  | some (w, t) => k w t

/-- Fetch the operand words a format calls for, in the order a, b, c, "before the instruction does anything else" (R58). -/
def fetchOperands (f : Format) (s : State) : Fetched :=
  match f with
  | .f0 i => .ready i s
  | .f1 mk => fetchThen s fun a t => .ready (mk (.ofWord a)) t
  | .f2 mk => fetchThen s fun a t => fetchThen t fun b u => .ready (mk (.ofWord a) (.ofWord b)) u
  | .f3 mk => fetchThen s fun a t => fetchThen t fun b u => fetchThen u fun c v =>
      .ready (mk (.ofWord a) (.ofWord b) (.ofWord c)) v

/-- `Step()` up to `Execute(k)` (R82) for a running core: latch the address, fetch and latch the opcode word, decode it,
fetch the operands. -/
def fetchInstr (s : State) : Fetched :=
  fetchThen (beginStep s) fun w t =>
    match formatOf w with
    | none => .ended (raise .invalidOpCode (latchOpcode w t))
    | some f => fetchOperands f (latchOpcode w t)

/-- The next instruction to execute; "when `run` is Halted or Faulted no step is defined" (R83). -/
def nextInstr (s : State) : Fetched :=
  match s.run with
  | .running => fetchInstr s
  | .halted => .ended (.fault .coreHalted)
  | .faulted => .ended (.fault .coreFaulted)

/-- The words an instruction at pc may have: the cells from pc up, at most four, and none past cell 32767 (R50, R36). -/
def codeWords (s : State) : List Word :=
  (List.range (min 4 (32768 - s.pc.toNat))).map fun k => s.mem.readCell (s.pc.toNat + k)

/-- Put words in the cells from address a up, as far as there are cells. -/
def placeWords : Nat → List Word → Memory → Memory
  | _, [], m => m
  | a, w :: ws, m => if a < Config.memCells then placeWords (a + 1) ws (m.writeCell a w) else m

end Sys2Proof.Machine
end

