-- ==== Sys2Proof/Machine/Step.lean ====
section
/-!
DEFINITION. One step of the run loop (40_execution_core.md rules R82, R83): fetch the next instruction, execute it.
-/

namespace Sys2Proof.Machine

/-- `Step()` (R82): one instruction, to completion (R84). -/
def step (s : State) : Host.Outcome State Fault Refusal :=
  match nextInstr s with
  | .ready i t => exec i t
  | .ended r => r

/-- The state with one instruction, its bits numbered as spec/opcode_table.json numbers them, in the cells from pc up. -/
def State.withFetchWord (s : State) (nbits w : Nat) : State :=
  { s with mem := placeWords s.pc.toNat (tableWords nbits w) s.mem }

end Sys2Proof.Machine
end

