-- ==== Sys2Proof/Safety.lean ====
section
/-!
DEFINITION. The terms claims are stated in: the invariant of the core, what a fault record may say, and what "unchanged"
means for memory and for the host's side of the boundary.
-/

namespace Sys2Proof.Machine

/-- Which opcode words go with which fault kind: the last column of 60_exceptions.md rule R200, with R202. `none` is an
opcode fetch that failed; `halt` and `noop` have no operand to fetch, so their word goes with no fault. -/
def raisableBy (k : FaultKind) (w : Option Word) : Bool :=
  match k, w with
  | .invalidMemory, none => true
  | .invalidMemory, some w => decide (1 ≤ w.toNat ∧ w.toNat ≤ 20)
  | .invalidOpCode, some w => decide (22 ≤ w.toNat)
  | .invalidRegister, some w => decide (w.toNat ∈ [1, 9, 10, 11, 12, 13, 14, 15, 20])
  | .stackEmpty, some w => decide (w.toNat ∈ [3, 18])
  | .readError, some w => decide (w.toNat = 20)
  | .writeError, some w => decide (w.toNat = 19)
  | .modByZero, some w => decide (w.toNat = 11)
  | _, none => false

/-- A fault record that some step could have written: its kind fits its opcode word, and the word is "absent exactly when
the fault was the InvalidMemory of the opcode fetch itself" (R18), which is at address 32768 alone (R13). -/
def FaultRecord.ok (r : FaultRecord) : Bool :=
  raisableBy r.kind r.opw && decide (r.addr.toNat ≤ 32768) && decide (r.opw = none ↔ r.addr.toNat = 32768)

/-- The invariant of the core: memory canonical, pc and the address latch in 0..32768 (R13), and a fault record exactly
in the faulted core, agreeing with the latches (R18, R206). -/
abbrev State.Inv (s : State) : Prop :=
  s.mem.wf = true ∧ s.pc.toNat ≤ 32768 ∧ s.ia.toNat ≤ 32768 ∧ (s.run = .faulted ↔ s.fault.isSome = true) ∧
    (s.fault.all fun r => r.ok && decide (r.addr = s.ia) && decide (r.opw = s.opw)) = true

/-- Every cell reads as before. -/
def SameMemory (s t : State) : Prop := ∀ a : Nat, t.mem.readCell a = s.mem.readCell a

/-- Every cell but the one at `a` reads as before; `none` is a form that stores nothing. -/
def SameMemoryBut (a : Option Word) (s t : State) : Prop :=
  ∀ b : Nat, a.map BitVec.toNat ≠ some b → t.mem.readCell b = s.mem.readCell b

/-- Every register but the one a word names reads as before; a literal or band H word names none. -/
def SameRegsBut (d : Operand) (s t : State) : Prop := ∀ i : Fin 8, d ≠ .reg i → getReg i t = getReg i s

/-- The two latches are as before. -/
def SameLatches (s t : State) : Prop := t.ia = s.ia ∧ t.opw = s.opw

/-- Nothing was asked of the source or presented to the sink. -/
def SameBoundary (s t : State) : Prop :=
  t.inAnswers = s.inAnswers ∧ t.outAnswers = s.outAnswers ∧ t.output = s.output

/-- `run` and the fault record are as before. -/
def SameRun (s t : State) : Prop := t.run = s.run ∧ t.fault = s.fault

/-- `run` and the fault record are as before, or a fault was raised with the latches' address and word (R206). -/
def SameRunOrRaised (s t : State) : Prop :=
  SameRun s t ∨ (t.run = .faulted ∧ ∃ k, t.fault = some ⟨k, s.ia, s.opw⟩)

/-- `t` is `s` with the word `v` in register i and nothing else changed. -/
def WroteReg (i : Fin 8) (v : Word) (s t : State) : Prop :=
  getReg i t = v ∧ SameRegsBut (.reg i) s t ∧ t.pc = s.pc ∧ t.stk = s.stk ∧ SameMemory s t ∧ SameRun s t ∧
    SameLatches s t ∧ SameBoundary s t

/-- `t` is `s` with the word `v` in the cell at `a` and nothing else changed. -/
def WroteCell (a v : Word) (s t : State) : Prop :=
  t.mem.readCell a.toNat = v ∧ SameMemoryBut (some a) s t ∧ t.regs = s.regs ∧ t.pc = s.pc ∧ t.stk = s.stk ∧
    SameRun s t ∧ SameLatches s t ∧ SameBoundary s t

/-- `t` is `s` with pc at `a` and nothing else changed. -/
def WentTo (a : Word) (s t : State) : Prop :=
  t.pc = a ∧ t.regs = s.regs ∧ t.stk = s.stk ∧ SameMemory s t ∧ SameRun s t ∧ SameLatches s t ∧ SameBoundary s t

/-- `t` is `s` with the fault k raised (R206): Faulted, the record written, and nothing else changed (R207). -/
def Raised (k : FaultKind) (s t : State) : Prop :=
  t.run = .faulted ∧ t.fault = some ⟨k, s.ia, s.opw⟩ ∧ t.regs = s.regs ∧ t.pc = s.pc ∧ t.stk = s.stk ∧
    t.mem = s.mem ∧ SameLatches s t ∧ SameBoundary s t

/-- The operand an instruction writes as a destination of kind D or W (R52), if it has one. -/
def destination : Instr → Option Operand
  | .set a _ | .pop a | .eq a _ _ | .gt a _ _ | .add a _ _ | .mult a _ _ | .mod a _ _ | .and a _ _ | .or a _ _ | .not a _
  | .rmem a _ | .inp a => some a
  | .halt | .push _ | .jmp _ | .jt _ _ | .jf _ _ | .wmem _ _ | .call _ | .ret | .out _ | .noop => none

/-- The cell an instruction stores to, if it stores (R45): a write-through's (R75) or `wmem`'s (R151). -/
def storeAddress (i : Instr) (s : State) : Option Word :=
  match i with
  | .pop a | .eq a _ _ | .gt a _ _ => writeThroughAddress a
  | .wmem a _ => if inBounds (resolve a s) then some (resolve a s) else none
  | .halt | .set _ _ | .push _ | .jmp _ | .jt _ _ | .jf _ _ | .add _ _ _ | .mult _ _ _ | .mod _ _ _ | .and _ _ _ | .or _ _ _
  | .not _ _ | .rmem _ _ | .call _ | .ret | .out _ | .inp _ | .noop => none

/-- Whether an instruction writes pc by `SetPC` (R14): `jmp`, `call`, `ret`, a taken `jt`, a taken `jf`. -/
def transfersControl (i : Instr) (s : State) : Bool :=
  match i with
  | .jmp _ | .call _ | .ret => true
  | .jt a _ => condTrue (resolve a s)
  | .jf a _ => !condTrue (resolve a s)
  | .halt | .set _ _ | .push _ | .pop _ | .eq _ _ _ | .gt _ _ _ | .add _ _ _ | .mult _ _ _ | .mod _ _ _ | .and _ _ _
  | .or _ _ _ | .not _ _ | .rmem _ _ | .wmem _ _ | .out _ | .inp _ | .noop => false

/-- The source has not answered all that the next `in` would ask: one byte, or a second after a 13 (R163). -/
def Unanswered (s : State) : Prop := s.inAnswers = [] ∨ s.inAnswers = [.byte 13]

/-- The core stands at an `in` whose source has not answered (R22, R83). -/
def AwaitsInput (s : State) : Prop := ∃ a rest, decode (codeWords s) = .instr (.inp a) rest ∧ Unanswered s

/-- The opcode word at pc, if pc names a cell. -/
def opcodeAt (s : State) : Option Word := load s.pc s

/-- From `s` to `t` the next fetch sees the word `v` stored at `a`, and the cell at pc as before if that is another. -/
def NextFetchSees (a v : Word) (s t : State) : Prop :=
  (s.pc = a → opcodeAt t = some v) ∧ (s.pc ≠ a → opcodeAt t = opcodeAt s)

/-- The state an instruction of `n` words at pc is executed in (R82): pc past its words, the latches loaded with its
address and its opcode word. -/
def fetched (n : Nat) (s : State) : State :=
  { s with pc := s.pc + BitVec.ofNat 16 n, ia := s.pc, opw := opcodeAt s }

end Sys2Proof.Machine
end

