-- ==== Sys2Proof/Certificates/Slice0/Obligations.lean ====
section
/-!
DEFINITION. The statements for the provers. `exec i s` is about a state `s` in which the instruction's words have been
fetched: pc past them, the latches loaded (rule R82); `step s` is about a whole step.
-/

open Sys2Proof Sys2Proof.Machine

/-! ### Encoding -/

/-- Decoding the words of a well-formed instruction, whatever follows them, gives it back (R50, R51, R53, R55): no bit of
an operand word is dropped. -/
def Obligations.DecodeInvertsEncode : Prop :=
  ∀ (i : Instr) (rest : List Word), i.wf = true → decode (encode i ++ rest) = .instr i rest

/-- Whatever the decoder makes an instruction of is that instruction's words, and the instruction is well formed: each
list of words has one meaning (R50 to R57). -/
def Obligations.EncodeInvertsDecode : Prop :=
  ∀ (ws rest : List Word) (i : Instr), decode ws = .instr i rest → i.wf = true ∧ ws = encode i ++ rest

/-- The decoder names an opcode word illegal exactly when it is in 22..65535, whatever follows it (R56, R79). -/
def Obligations.DecoderRejectsExactlyWordsAbove21 : Prop :=
  ∀ (w : Word) (ws : List Word), decode (w :: ws) = .rejected (.illegalOpcode w) ↔ 22 ≤ w.toNat

/-- Words written out from the map of R55 and the bands of R53 decode to what they stand for; a word of R56 to none. -/
def Obligations.WrittenOutWordsDecode : Prop :=
  decode [0] = .instr .halt [] ∧
  decode [1, 32768, 5] = .instr (.set (.reg 0) (.lit 5)) [] ∧
  decode [3, 32775] = .instr (.pop (.reg 7)) [] ∧
  decode [5, 100, 32769, 40000] = .instr (.gt (.lit 100) (.reg 1) (.high 40000)) [] ∧
  decode [8, 32770, 32767] = .instr (.jf (.reg 2) (.lit 32767)) [] ∧
  decode [9, 32768, 32767, 1] = .instr (.add (.reg 0) (.lit 32767) (.lit 1)) [] ∧
  decode [16, 32776, 32771] = .instr (.wmem (.high 32776) (.reg 3)) [] ∧
  decode [20, 32772, 7] = .instr (.inp (.reg 4)) [7] ∧
  decode [22, 0] = .rejected (.illegalOpcode 22)

/-! ### The step -/

/-- A step of a running core runs the decoded instruction: when the cells from pc up decode to `i`, the step is `exec` of
`i` in the state with pc past its words and the latches loaded with its address and opcode word (R82, R58). -/
def Obligations.StepRunsDecodedInstruction : Prop :=
  ∀ (s : State) (i : Instr) (rest : List Word), s.run = .running → decode (codeWords s) = .instr i rest →
    step s = exec i (fetched (encode i).length s)

/-- An instruction cut off by the end of memory raises the InvalidMemory of `Fetch` (R70, R36): pc stands past the last
word fetched, 32768 once any was, and the record holds the instruction's address and, if fetched, its opcode word (the
record's content is the spec's decision D3, the unchecked increment its decision D2; log entry 9). -/
def Obligations.CutOffInstructionRaisesInvalidMemory : Prop :=
  ∀ s : State, s.run = .running → decode (codeWords s) = .rejected .truncated →
    ∃ t, step s = .next t ∧ t.run = .faulted ∧ t.fault = some ⟨.invalidMemory, s.pc, opcodeAt s⟩ ∧
      t.pc = (if s.pc.toNat ≤ 32767 then 32768 else s.pc) ∧ t.regs = s.regs ∧ t.stk = s.stk ∧ t.mem = s.mem ∧
      SameBoundary s t

/-- R56: an opcode word in 22..65535 raises InvalidOpCode, having consumed that one word and nothing else; it is never
resolved, whatever the registers hold. -/
def Obligations.IllegalOpcodeRaisesInvalidOpCode : Prop :=
  ∀ (s : State) (w : Word), s.run = .running → opcodeAt s = some w → 22 ≤ w.toNat →
    ∃ t, step s = .next t ∧ t.run = .faulted ∧ t.fault.map FaultRecord.kind = some .invalidOpCode ∧
      t.pc.toNat = s.pc.toNat + 1 ∧ t.regs = s.regs ∧ t.stk = s.stk ∧ t.mem = s.mem ∧ SameBoundary s t

/-- "When `run` is Halted or Faulted no step is defined" (R83): the model stops there by a name of its own for each. -/
def Obligations.StoppedCoreHasNoStep : Prop :=
  ∀ s : State, (s.run = .halted → step s = .fault .coreHalted) ∧ (s.run = .faulted → step s = .fault .coreFaulted)

/-- A state with `run = Running` has a successor whatever its memory, registers, stack and answers (R84, R86), except one
that stands at an `in` whose source has not answered: there no step is enabled (R22, R83), under a name of the model's own
(log entry 5). It rests on the default STACK_DEPTH (log entry 7). -/
def Obligations.EveryRunningStateHasASuccessor : Prop :=
  ∀ s : State, s.run = .running →
    (AwaitsInput s → step s = .fault .waitingForInput) ∧ (¬ AwaitsInput s → ∃ t, step s = .next t)

/-- Running to Halted only by `halt`, and always by it (R17, R85, R233): exactly when the cell at pc holds 0. -/
def Obligations.OnlyOpcodeZeroHalts : Prop :=
  ∀ s t : State, s.run = .running → step s = .next t → (t.run = .halted ↔ opcodeAt s = some 0)

/-- A step that ends Faulted has written the record with the address and the opcode word of its instruction, absent
exactly when pc names no cell, under a kind the table of R200 gives that opcode word; any other step leaves the record
alone. The record's content is the spec's decision D3 (log entry 9). -/
def Obligations.FaultRecordNamesTheInstruction : Prop :=
  ∀ s t : State, s.run = .running → step s = .next t →
    (t.run = .faulted → ∃ k, t.fault = some ⟨k, s.pc, opcodeAt s⟩ ∧ raisableBy k (opcodeAt s) = true) ∧
      (t.run ≠ .faulted → t.fault = s.fault)

/-- "Registers and memory are never changed by a faulting step" (R207, the spec's decision D14, log entry 9), nor is the
output trace. -/
def Obligations.FaultingStepKeepsRegistersAndMemory : Prop :=
  ∀ s t : State, s.run = .running → step s = .next t → t.run = .faulted →
    t.regs = s.regs ∧ t.mem = s.mem ∧ t.output = s.output

/-- A step changes no cell but the one at the decoded instruction's `storeAddress` (R45): for `pop`, `eq` and `gt` the
address of their write-through, for `wmem` its resolved address in bounds, for every other instruction and for words that
decode to none no cell at all; and a step that changes memory changes no register. -/
def Obligations.OnlyStoringOpcodesWriteMemory : Prop :=
  ∀ s t : State, s.run = .running → step s = .next t →
    (∀ r, decode (codeWords s) = .rejected r → t.mem = s.mem) ∧
      (∀ i rest, decode (codeWords s) = .instr i rest → SameMemoryBut (storeAddress i s) s t) ∧
      (t.mem = s.mem ∨ t.regs = s.regs)

/-- A step changes no register but the one the decoded instruction's destination operand names, if it has one and that
names one (R12); words that decode to no instruction change none. -/
def Obligations.OnlyRegisterWritersChangeARegister : Prop :=
  ∀ s t : State, s.run = .running → step s = .next t →
    (∀ r, decode (codeWords s) = .rejected r → t.regs = s.regs) ∧
      ∀ i rest, decode (codeWords s) = .instr i rest → ∀ j, destination i ≠ some (.reg j) → getReg j t = getReg j s

/-- The stack moves by at most one entry at its top (R15): one more by `push` or `call`, one fewer by `pop` or `ret`. -/
def Obligations.OnlyStackOpcodesMoveTheStack : Prop :=
  ∀ s t : State, s.run = .running → step s = .next t →
    t.stk = s.stk ∨
      ((∃ w, opcodeAt s = some w ∧ w.toNat ∈ [2, 17]) ∧ ∃ v, t.stk = v :: s.stk) ∨
      ((∃ w, opcodeAt s = some w ∧ w.toNat ∈ [3, 18]) ∧ ∃ v, s.stk = v :: t.stk)

/-- The boundary is reached only by `out` and `in` (R38 d): the trace grows by one byte or not at all and only by `out`,
and answers of the source are consumed from the front, at most two, and only by `in` (R21, R22). -/
def Obligations.OnlyOutAndInReachTheBoundary : Prop :=
  ∀ s t : State, s.run = .running → step s = .next t →
    SameBoundary s t ∨
      (opcodeAt s = some 19 ∧ t.inAnswers = s.inAnswers ∧ (t.output = s.output ∨ ∃ b, t.output = s.output ++ [b])) ∨
      (opcodeAt s = some 20 ∧ t.outAnswers = s.outAnswers ∧ t.output = s.output ∧
        ((∃ x, s.inAnswers = x :: t.inAnswers) ∨ ∃ x y, s.inAnswers = x :: y :: t.inAnswers))

/-- Between steps pc is written only by the words consumed and by the control transfers (R13, R14): an instruction that
does not transfer control, an untaken `jt` or `jf` among them, leaves it past its own words. -/
def Obligations.PcAdvancesPastItsWords : Prop :=
  ∀ (s : State) (i : Instr) (rest : List Word) (t : State), s.run = .running → decode (codeWords s) = .instr i rest →
    step s = .next t → transfersControl i s = false → t.pc.toNat = s.pc.toNat + (encode i).length

/-- The invariant of the core is kept by every step: memory canonical, pc and the address latch in 0..32768, the record
written exactly in the faulted core, agreeing with the latches and with the table of R200. -/
def Obligations.StepKeepsTheCoreInvariant : Prop :=
  ∀ s t : State, s.Inv → step s = .next t → t.Inv

/-! ### Reset -/

/-- The invariant holds right after reset, with any image, source and sink. -/
def Obligations.ResetMeetsTheCoreInvariant : Prop :=
  State.reset.Inv ∧ ∀ (image : List Word) (ins : List InAnswer) (outs : List OutAnswer), (resetWith image ins outs).Inv

/-- What reset leaves (R26). The registers' zero is the spec's own decision D5 (log entry 3); the latches' values are what
"the model may take" (R26). -/
def Obligations.ResetLeavesTheStatedValues : Prop :=
  (∀ i, getReg i State.reset = 0) ∧ State.reset.pc = 0 ∧ State.reset.stk = [] ∧ State.reset.run = .running ∧
    State.reset.output = [] ∧ (∀ a, State.reset.mem.readCell a = 0) ∧ State.reset.ia = 0 ∧ State.reset.opw = none

/-- Reset with an image (R35, R230): cell a holds the image's word at index a, cells past the image hold 0, and all else
is as right after reset. -/
def Obligations.ResetCopiesTheImage : Prop :=
  ∀ (image : List Word) (ins : List InAnswer) (outs : List OutAnswer),
    (∀ a, a < 32768 → (resetWith image ins outs).mem.readCell a = image.getD a 0) ∧
      { resetWith image ins outs with mem := [], inAnswers := [], outAnswers := [] } = State.reset

/-! ### Primitives -/

/-- R31, R32: `Load(a)` succeeds exactly for a in 0..32767 and gives the cell's word. `Store(a, v)` out of range raises
InvalidMemory and changes no cell; in range cell a reads back all 16 bits of v in later loads and every other cell is
unchanged. The record that the fault writes is R206's with the content of the spec's decision D3 (log entry 9). -/
def Obligations.LoadAndStoreRoundTripInRange : Prop :=
  ∀ (a v : Word) (s : State), s.mem.wf = true →
    (32767 < a.toNat → load a s = none ∧ ∃ t, store a v s = .next t ∧ Raised .invalidMemory s t) ∧
      (a.toNat ≤ 32767 → load a s = some (s.mem.readCell a.toNat) ∧
        ∃ t, store a v s = .next t ∧ WroteCell a v s t ∧ load a t = some v ∧ ∀ b, b ≠ a → load b t = load b s)

/-- R72 on raw words: a register's content for 32768..32775, the word itself for every other, band H included; it never
fails, and it is one level (a register's content is not looked at again). -/
def Obligations.ResolveIsRegisterOrWordItself : Prop :=
  ∀ (w : Word) (s : State),
    (∀ i : Fin 8, w.toNat = 32768 + i.val → resolve (.ofWord w) s = getReg i s) ∧
      ((w.toNat < 32768 ∨ 32775 < w.toNat) → resolve (.ofWord w) s = w)

/-- R74 on raw words: a register write for 32768..32775, all 16 bits, no other register changed; InvalidRegister for every
other word, and nothing written. -/
def Obligations.RegSetWritesOnlyTheRegisterBand : Prop :=
  ∀ (w v : Word) (s : State),
    (∀ i : Fin 8, w.toNat = 32768 + i.val → ∃ t, regSet (.ofWord w) v s = .next t ∧ WroteReg i v s t) ∧
      ((w.toNat < 32768 ∨ 32775 < w.toNat) → ∃ t, regSet (.ofWord w) v s = .next t ∧ Raised .invalidRegister s t)

/-- R75 on raw words: cell w for 0..32767, the register for 32768..32775, InvalidMemory above. -/
def Obligations.WriteThroughFollowsTheThreeBands : Prop :=
  ∀ (w v : Word) (s : State), s.mem.wf = true →
    (w.toNat ≤ 32767 → ∃ t, writeThrough (.ofWord w) v s = .next t ∧ WroteCell w v s t) ∧
      (∀ i : Fin 8, w.toNat = 32768 + i.val → ∃ t, writeThrough (.ofWord w) v s = .next t ∧ WroteReg i v s t) ∧
      (32775 < w.toNat → ∃ t, writeThrough (.ofWord w) v s = .next t ∧ Raised .invalidMemory s t)

/-- R76, R77: a push puts its word on top; `pop` after `push` returns what was pushed and the stack as it was; `pop` and
`ret` on an empty stack raise StackEmpty. The record that the fault writes is R206's with the content of the spec's decision
D3 (log entry 9). -/
def Obligations.PopUndoesPushAndEmptyStackFaults : Prop :=
  (∀ (v : Word) (s t : State), pushStk v s = some t → t.stk = v :: s.stk ∧ popStk t = some (v, s)) ∧
    ∀ (a : Operand) (s : State), s.stk = [] →
      popStk s = none ∧ (∃ t, exec (.pop a) s = .next t ∧ Raised .stackEmpty s t) ∧
        ∃ t, exec .ret s = .next t ∧ Raised .stackEmpty s t

/-! ### halt, noop -/

/-- R100: a step on opcode 0 ends Halted with pc past it, nothing else changes but the latches, no byte of a notice is
written (the spec's decision D10), and no further step is taken: the model's answer there is its own name coreHalted (log
entry 8). `halt` itself always completes. -/
def Obligations.HaltEndsTheRun : Prop :=
  (∀ s : State, s.run = .running → opcodeAt s = some 0 →
    ∃ t, step s = .next t ∧ t.run = .halted ∧ t.pc.toNat = s.pc.toNat + 1 ∧ t.regs = s.regs ∧ t.mem = s.mem ∧ t.stk = s.stk ∧
      t.fault = s.fault ∧ SameBoundary s t ∧ step t = .fault .coreHalted) ∧
    ∀ s : State, ∃ t, exec .halt s = .next t ∧ t.run = .halted ∧ t.pc = s.pc ∧ t.regs = s.regs ∧ t.mem = s.mem ∧
      t.stk = s.stk ∧ t.fault = s.fault ∧ SameLatches s t ∧ SameBoundary s t

/-- R101: a step on opcode 21 only advances pc by one (and loads the latches); `noop` itself always completes. -/
def Obligations.NoopOnlyAdvancesPc : Prop :=
  (∀ s : State, s.run = .running → opcodeAt s = some 21 →
    ∃ t, step s = .next t ∧ t.pc.toNat = s.pc.toNat + 1 ∧ t.regs = s.regs ∧ t.mem = s.mem ∧ t.stk = s.stk ∧ SameRun s t ∧
      SameBoundary s t) ∧
    ∀ s : State, exec .noop s = .next s

/-! ### set, push, pop -/

/-- R110: `set` writes the resolved source, all 16 bits, into the register it names, and changes nothing else. -/
def Obligations.SetWritesTheResolvedSource : Prop :=
  ∀ (i : Fin 8) (b : Operand) (s : State), ∃ t, exec (.set (.reg i) b) s = .next t ∧ WroteReg i (resolve b s) s t

/-- R111: `push` puts the resolved source on top of the stack, and changes nothing else. -/
def Obligations.PushPutsTheResolvedSourceOnTop : Prop :=
  ∀ (a : Operand) (s : State), ∃ t, exec (.push a) s = .next t ∧ t.stk = resolve a s :: s.stk ∧ t.regs = s.regs ∧
    t.pc = s.pc ∧ SameMemory s t ∧ SameRun s t ∧ SameLatches s t ∧ SameBoundary s t

/-- R112: `pop` removes the top entry and writes it to the register, or to the cell at the literal; into band H it raises
InvalidMemory with the entry already gone. -/
def Obligations.PopMovesTheTopToItsDestination : Prop :=
  ∀ (v : Word) (rest : List Word) (s : State), s.stk = v :: rest →
    (∀ i, ∃ t, exec (.pop (.reg i)) s = .next t ∧ WroteReg i v (withStk rest s) t) ∧
      (∀ w : Word, w.toNat ≤ 32767 → s.mem.wf = true →
        ∃ t, exec (.pop (.lit w)) s = .next t ∧ WroteCell w v (withStk rest s) t) ∧
      ∀ w : Word, 32776 ≤ w.toNat → ∃ t, exec (.pop (.high w)) s = .next t ∧ Raised .invalidMemory (withStk rest s) t

/-! ### eq, gt -/

/-- R120: `eq` writes 1 through its destination if the two resolved words are equal on all 16 bits, else 0; into band H
it raises InvalidMemory. -/
def Obligations.EqWritesOneExactlyOnEqualWords : Prop :=
  ∀ (b c : Operand) (s : State) (r : Word), s.mem.wf = true → (r = if resolve b s = resolve c s then 1 else 0) →
    (∀ i, ∃ t, exec (.eq (.reg i) b c) s = .next t ∧ WroteReg i r s t) ∧
      (∀ w : Word, w.toNat ≤ 32767 → ∃ t, exec (.eq (.lit w) b c) s = .next t ∧ WroteCell w r s t) ∧
      (∀ w : Word, 32776 ≤ w.toNat → ∃ t, exec (.eq (.high w) b c) s = .next t ∧ Raised .invalidMemory s t)

/-- R121: `gt` writes 1 through its destination if the first resolved word is the greater, unsigned on all 16 bits, else
0; into band H it raises InvalidMemory. -/
def Obligations.GtComparesUnsigned : Prop :=
  ∀ (b c : Operand) (s : State) (r : Word), s.mem.wf = true →
    (r = if (resolve c s).toNat < (resolve b s).toNat then 1 else 0) →
    (∀ i, ∃ t, exec (.gt (.reg i) b c) s = .next t ∧ WroteReg i r s t) ∧
      (∀ w : Word, w.toNat ≤ 32767 → ∃ t, exec (.gt (.lit w) b c) s = .next t ∧ WroteCell w r s t) ∧
      (∀ w : Word, 32776 ≤ w.toNat → ∃ t, exec (.gt (.high w) b c) s = .next t ∧ Raised .invalidMemory s t)

/-! ### jmp, jt, jf, call, ret -/

/-- R130: `jmp` goes to its resolved target, or raises InvalidMemory above 32767 with pc unchanged. -/
def Obligations.JmpGoesToTheResolvedTarget : Prop :=
  ∀ (a : Operand) (s : State),
    ((resolve a s).toNat ≤ 32767 → ∃ t, exec (.jmp a) s = .next t ∧ WentTo (resolve a s) s t) ∧
      (32767 < (resolve a s).toNat → ∃ t, exec (.jmp a) s = .next t ∧ Raised .invalidMemory s t)

/-- R131: `jt` goes to its raw target exactly when the resolved condition is not 0; otherwise it changes nothing and does
not look at the target; a taken jump to a word above 32767, a register's own word among them, raises InvalidMemory. -/
def Obligations.JtJumpsExactlyOnNonzero : Prop :=
  ∀ (a b : Operand) (s : State),
    (resolve a s = 0 → exec (.jt a b) s = .next s) ∧
      (resolve a s ≠ 0 → b.toWord.toNat ≤ 32767 → ∃ t, exec (.jt a b) s = .next t ∧ WentTo b.toWord s t) ∧
      (resolve a s ≠ 0 → 32767 < b.toWord.toNat → ∃ t, exec (.jt a b) s = .next t ∧ Raised .invalidMemory s t)

/-- R132: `jf` goes to its raw target exactly when the resolved condition is 0. -/
def Obligations.JfJumpsExactlyOnZero : Prop :=
  ∀ (a b : Operand) (s : State),
    (resolve a s ≠ 0 → exec (.jf a b) s = .next s) ∧
      (resolve a s = 0 → b.toWord.toNat ≤ 32767 → ∃ t, exec (.jf a b) s = .next t ∧ WentTo b.toWord s t) ∧
      (resolve a s = 0 → 32767 < b.toWord.toNat → ∃ t, exec (.jf a b) s = .next t ∧ Raised .invalidMemory s t)

/-- R133: `call` pushes pc, the address after it, and goes to its resolved target; with a target above 32767 it raises
InvalidMemory, the return address already pushed. -/
def Obligations.CallPushesTheReturnAddress : Prop :=
  ∀ (a : Operand) (s : State),
    ((resolve a s).toNat ≤ 32767 → ∃ t, exec (.call a) s = .next t ∧ WentTo (resolve a s) (withStk (s.pc :: s.stk) s) t) ∧
      (32767 < (resolve a s).toNat → ∃ t, exec (.call a) s = .next t ∧ Raised .invalidMemory (withStk (s.pc :: s.stk) s) t)

/-- R134: `ret` goes to the popped word as it is, unresolved; above 32767 it raises InvalidMemory with the entry gone. -/
def Obligations.RetGoesToThePoppedWord : Prop :=
  ∀ (v : Word) (rest : List Word) (s : State), s.stk = v :: rest →
    (v.toNat ≤ 32767 → ∃ t, exec .ret s = .next t ∧ WentTo v (withStk rest s) t) ∧
      (32767 < v.toNat → ∃ t, exec .ret s = .next t ∧ Raised .invalidMemory (withStk rest s) t)

/-- A `ret` right after a `call` resumes at the instruction after the call with the state as it was there (R133, R134). -/
def Obligations.RetUndoesCall : Prop :=
  ∀ (a : Operand) (s t : State), (resolve a s).toNat ≤ 32767 → s.pc.toNat ≤ 32767 → exec (.call a) s = .next t →
    exec .ret t = .next s

/-! ### The ALU -/

/-- R140: `add` writes the exact sum modulo 32768. -/
def Obligations.AddWritesTheSumModulo32768 : Prop :=
  ∀ (i : Fin 8) (b c : Operand) (s : State), ∃ t r, exec (.add (.reg i) b c) s = .next t ∧ WroteReg i r s t ∧
    r.toNat = ((resolve b s).toNat + (resolve c s).toNat) % 32768

/-- R141: `mult` writes the exact product modulo 32768. -/
def Obligations.MultWritesTheProductModulo32768 : Prop :=
  ∀ (i : Fin 8) (b c : Operand) (s : State), ∃ t r, exec (.mult (.reg i) b c) s = .next t ∧ WroteReg i r s t ∧
    r.toNat = ((resolve b s).toNat * (resolve c s).toNat) % 32768

/-- R142: `mod` with a non-zero divisor writes the unsigned remainder, below the divisor and not reduced modulo 32768. -/
def Obligations.ModWritesTheUnsignedRemainder : Prop :=
  ∀ (i : Fin 8) (b c : Operand) (s : State), resolve c s ≠ 0 → ∃ t r, exec (.mod (.reg i) b c) s = .next t ∧
    WroteReg i r s t ∧ r.toNat < (resolve c s).toNat ∧ (resolve c s).toNat ∣ (resolve b s).toNat - r.toNat ∧
      r.toNat ≤ (resolve b s).toNat

/-- R142: a zero divisor raises ModByZero whatever the destination word is, and writes nothing. The kind and its place
before the destination check are the spec's decisions D8 and D9 (log entry 9). -/
def Obligations.ModByZeroFaultsBeforeTheDestination : Prop :=
  ∀ (a b c : Operand) (s : State), resolve c s = 0 → ∃ t, exec (.mod a b c) s = .next t ∧ Raised .modByZero s t

/-- R143, R144: `and` and `or` write the bitwise and and or of all 16 bits, unmasked. -/
def Obligations.AndOrActOnAllSixteenBits : Prop :=
  ∀ (i : Fin 8) (b c : Operand) (s : State),
    (∃ t r, exec (.and (.reg i) b c) s = .next t ∧ WroteReg i r s t ∧
      ∀ j < 16, r.getLsbD j = ((resolve b s).getLsbD j && (resolve c s).getLsbD j)) ∧
      ∃ t r, exec (.or (.reg i) b c) s = .next t ∧ WroteReg i r s t ∧
        ∀ j < 16, r.getLsbD j = ((resolve b s).getLsbD j || (resolve c s).getLsbD j)

/-- R145: `not` writes 32767 minus the value modulo 32768: bits 0 to 14 inverted, bit 15 clear. -/
def Obligations.NotInvertsFifteenBits : Prop :=
  ∀ (i : Fin 8) (b : Operand) (s : State), ∃ t r, exec (.not (.reg i) b) s = .next t ∧ WroteReg i r s t ∧
    r.toNat = 32767 - (resolve b s).toNat % 32768

/-- R74 in the nine instructions with a kind D destination: a literal or band H destination raises InvalidRegister, never
a memory write, once the statements before the destination check have gone through (the spec's decision D9, log entry 9);
`in` has by then consumed its byte, or its two bytes when the first is 13 (R163). -/
def Obligations.NineInstructionsNeedARegister : Prop :=
  ∀ (a b c : Operand) (s : State), (∀ i, a ≠ .reg i) →
    (∃ t, exec (.set a b) s = .next t ∧ Raised .invalidRegister s t) ∧
    (∃ t, exec (.add a b c) s = .next t ∧ Raised .invalidRegister s t) ∧
    (∃ t, exec (.mult a b c) s = .next t ∧ Raised .invalidRegister s t) ∧
    (resolve c s ≠ 0 → ∃ t, exec (.mod a b c) s = .next t ∧ Raised .invalidRegister s t) ∧
    (∃ t, exec (.and a b c) s = .next t ∧ Raised .invalidRegister s t) ∧
    (∃ t, exec (.or a b c) s = .next t ∧ Raised .invalidRegister s t) ∧
    (∃ t, exec (.not a b) s = .next t ∧ Raised .invalidRegister s t) ∧
    ((resolve b s).toNat ≤ 32767 → ∃ t, exec (.rmem a b) s = .next t ∧ Raised .invalidRegister s t) ∧
    (∀ x rest, s.inAnswers = .byte x :: rest → x ≠ 13 →
      ∃ t, exec (.inp a) s = .next t ∧ Raised .invalidRegister (withIns rest s) t) ∧
    (∀ y rest, s.inAnswers = .byte 13 :: .byte y :: rest →
      ∃ t, exec (.inp a) s = .next t ∧ Raised .invalidRegister (withIns rest s) t)

/-! ### rmem, wmem -/

/-- R150: `rmem` writes the whole cell at the resolved address into the register; an address above 32767 raises
InvalidMemory whatever the destination word is (the spec's decision D9, log entry 9). -/
def Obligations.RmemLoadsTheWholeCell : Prop :=
  ∀ (b : Operand) (s : State),
    ((resolve b s).toNat ≤ 32767 → ∀ i, ∃ t, exec (.rmem (.reg i) b) s = .next t ∧
      WroteReg i (s.mem.readCell (resolve b s).toNat) s t) ∧
      (32767 < (resolve b s).toNat → ∀ a, ∃ t, exec (.rmem a b) s = .next t ∧ Raised .invalidMemory s t)

/-- R151: `wmem` writes the whole resolved value to the cell at the resolved address; above 32767 it raises
InvalidMemory. -/
def Obligations.WmemStoresAtTheResolvedAddress : Prop :=
  ∀ (a b : Operand) (s : State), s.mem.wf = true →
    ((resolve a s).toNat ≤ 32767 → ∃ t, exec (.wmem a b) s = .next t ∧ WroteCell (resolve a s) (resolve b s) s t) ∧
      (32767 < (resolve a s).toNat → ∃ t, exec (.wmem a b) s = .next t ∧ Raised .invalidMemory s t)

/-- R43: what `wmem`, or the write-through of `pop`, `eq` or `gt`, stores is what the very next fetch of that cell reads,
with nothing between; any other cell is fetched as before. -/
def Obligations.StoreIsSeenByTheNextFetch : Prop :=
  ∀ (a b c : Operand) (s : State), s.mem.wf = true →
    ((resolve a s).toNat ≤ 32767 →
      ∃ t, exec (.wmem a b) s = .next t ∧ NextFetchSees (resolve a s) (resolve b s) s t) ∧
    ∀ w, writeThroughAddress a = some w →
      (∀ v rest, s.stk = v :: rest → ∃ t, exec (.pop a) s = .next t ∧ NextFetchSees w v s t) ∧
      (∃ t, exec (.eq a b c) s = .next t ∧ NextFetchSees w (if resolve b s = resolve c s then 1 else 0) s t) ∧
      ∃ t, exec (.gt a b c) s = .next t ∧
        NextFetchSees w (if (resolve c s).toNat < (resolve b s).toNat then 1 else 0) s t

/-! ### out, in -/

/-- R162, R161: `out` appends the low 8 bits of the resolved value to the trace if the sink accepts, and raises WriteError
with the trace unchanged if it fails. That a sink with no answer listed accepts is the model's choice (log entry 6). -/
def Obligations.OutAppendsTheLowByte : Prop :=
  ∀ (a : Operand) (s : State),
    (s.outAnswers.head? ≠ some .failed → ∃ t b, exec (.out a) s = .next t ∧ t.output = s.output ++ [b] ∧
      b.toNat = (resolve a s).toNat % 256 ∧ t.outAnswers = s.outAnswers.tail ∧ t.inAnswers = s.inAnswers ∧
      t.regs = s.regs ∧ t.pc = s.pc ∧ t.stk = s.stk ∧ SameMemory s t ∧ SameRun s t ∧ SameLatches s t) ∧
      (∀ rest, s.outAnswers = .failed :: rest →
        ∃ t, exec (.out a) s = .next t ∧ Raised .writeError { s with outAnswers := rest } t)

/-- R163: `in` writes the byte answered, zero-extended, into the register and consumes that byte alone, unless it is 13. -/
def Obligations.InWritesTheByteZeroExtended : Prop :=
  ∀ (i : Fin 8) (b : Byte) (rest : List InAnswer) (s : State), s.inAnswers = .byte b :: rest → b ≠ 13 →
    ∃ t r, exec (.inp (.reg i)) s = .next t ∧ WroteReg i r (withIns rest s) t ∧ r.toNat = b.toNat

/-- R163: after a 13 one further byte, whatever it is, is consumed and lost, and the register receives 13 (the spec's
decision D11, log entry 9). -/
def Obligations.InDropsTheByteAfterCarriageReturn : Prop :=
  ∀ (i : Fin 8) (c : Byte) (rest : List InAnswer) (s : State), s.inAnswers = .byte 13 :: .byte c :: rest →
    ∃ t, exec (.inp (.reg i)) s = .next t ∧ WroteReg i 13 (withIns rest s) t

/-- R160, R163: a failed answer to either read raises ReadError whatever the destination word is (the spec's decisions D9
and D12, log entry 9); the bytes answered before it are consumed. -/
def Obligations.InRaisesReadErrorOnFailedAnswers : Prop :=
  ∀ (a : Operand) (rest : List InAnswer) (s : State),
    (s.inAnswers = .failed :: rest → ∃ t, exec (.inp a) s = .next t ∧ Raised .readError (withIns rest s) t) ∧
      (s.inAnswers = .byte 13 :: .failed :: rest → ∃ t, exec (.inp a) s = .next t ∧ Raised .readError (withIns rest s) t)

/-- `in` has no next state exactly when its source has not answered all it asks: nothing, or 13 and no second answer (R22;
the stop's name is the model's, log entry 5); and two further answers, whatever they are, lift every wait, so that the same
`in` in the same state completes. -/
def Obligations.InWaitsForAnAnswer : Prop :=
  ∀ (a : Operand) (s : State),
    (exec (.inp a) s = .fault .waitingForInput ↔ s.inAnswers = [] ∨ s.inAnswers = [.byte 13]) ∧
      ∀ x y, ∃ t, exec (.inp a) { s with inAnswers := s.inAnswers ++ [x, y] } = .next t

/-! ### Frames -/

/-- The frame of `set`, `add`, `mult`, `mod`, `and`, `or`, `not` and `rmem`: no register but the destination's, no cell,
no stack entry, no latch, nothing of the boundary and not pc; `run` and the record only by a fault raised. -/
def Obligations.RegisterWritersFrame : Prop :=
  ∀ (a b c : Operand) (s t : State),
    (exec (.set a b) s = .next t ∨ exec (.add a b c) s = .next t ∨ exec (.mult a b c) s = .next t ∨
      exec (.mod a b c) s = .next t ∨ exec (.and a b c) s = .next t ∨ exec (.or a b c) s = .next t ∨
      exec (.not a b) s = .next t ∨ exec (.rmem a b) s = .next t) →
    SameRegsBut a s t ∧ t.pc = s.pc ∧ t.stk = s.stk ∧ SameMemory s t ∧ SameLatches s t ∧ SameBoundary s t ∧
      SameRunOrRaised s t

/-- The frame of `eq` and `gt`: no register but the destination's and no cell but the one at `writeThroughAddress`. -/
def Obligations.ComparisonsFrame : Prop :=
  ∀ (a b c : Operand) (s t : State), (exec (.eq a b c) s = .next t ∨ exec (.gt a b c) s = .next t) →
    SameRegsBut a s t ∧ SameMemoryBut (writeThroughAddress a) s t ∧ t.pc = s.pc ∧ t.stk = s.stk ∧ SameLatches s t ∧
      SameBoundary s t ∧ SameRunOrRaised s t

/-- The frame of `push`, `pop` and `wmem`: what each may change is named; the rest is unchanged. -/
def Obligations.PushPopWmemFrame : Prop :=
  ∀ (a b : Operand) (s t : State),
    (exec (.push a) s = .next t → t.regs = s.regs ∧ SameMemory s t ∧ t.pc = s.pc ∧ SameLatches s t ∧ SameBoundary s t ∧
      SameRun s t) ∧
    (exec (.pop a) s = .next t → SameRegsBut a s t ∧ SameMemoryBut (writeThroughAddress a) s t ∧ t.stk = s.stk.tail ∧
      t.pc = s.pc ∧ SameLatches s t ∧ SameBoundary s t ∧ SameRunOrRaised s t) ∧
    (exec (.wmem a b) s = .next t →
      SameMemoryBut (if (resolve a s).toNat ≤ 32767 then some (resolve a s) else none) s t ∧ t.regs = s.regs ∧
      t.stk = s.stk ∧ t.pc = s.pc ∧ SameLatches s t ∧ SameBoundary s t ∧ SameRunOrRaised s t)

/-- The frame of `jmp`, `jt`, `jf`, `call` and `ret`: pc, and the stack for the last two. -/
def Obligations.ControlTransferFrame : Prop :=
  ∀ (a b : Operand) (s t : State),
    ((exec (.jmp a) s = .next t ∨ exec (.jt a b) s = .next t ∨ exec (.jf a b) s = .next t) → t.stk = s.stk) ∧
    (exec (.call a) s = .next t → t.stk = s.pc :: s.stk) ∧ (exec .ret s = .next t → t.stk = s.stk.tail) ∧
    ((exec (.jmp a) s = .next t ∨ exec (.jt a b) s = .next t ∨ exec (.jf a b) s = .next t ∨ exec (.call a) s = .next t ∨
      exec .ret s = .next t) →
      t.regs = s.regs ∧ SameMemory s t ∧ SameLatches s t ∧ SameBoundary s t ∧ SameRunOrRaised s t)

/-- The frame of `out` and `in`: `out` changes the trace and the sink's answers, `in` its destination register and the
source's answers; neither moves pc. -/
def Obligations.OutInFrame : Prop :=
  ∀ (a : Operand) (s t : State),
    (exec (.out a) s = .next t → t.regs = s.regs ∧ t.pc = s.pc ∧ t.inAnswers = s.inAnswers) ∧
    (exec (.inp a) s = .next t → SameRegsBut a s t ∧ t.pc = s.pc ∧ t.outAnswers = s.outAnswers ∧ t.output = s.output) ∧
    ((exec (.out a) s = .next t ∨ exec (.inp a) s = .next t) →
      SameMemory s t ∧ t.stk = s.stk ∧ SameLatches s t ∧ SameRunOrRaised s t)
end

