-- ==== Sys2Proof/Laws/Decode.lean ====
section
/-!
SUPPORT. The laws of operand words: the bands of R53 part the 65536 words, and sorting a word loses nothing.
-/

namespace Sys2Proof

/-- The decoder makes well-formed operands. -/
theorem ofWord_wf (w : Word) : (Operand.ofWord w).wf = true := by
  unfold Operand.ofWord
  split
  · simpa [Operand.wf]
  · split
    · rfl
    · simp only [Operand.wf, decide_eq_true_eq]
      omega

/-- Sorting a word into its band loses nothing. -/
theorem toWord_ofWord (w : Word) : (Operand.ofWord w).toWord = w := by
  unfold Operand.ofWord
  split
  · rfl
  · split
    · apply BitVec.eq_of_toNat_eq
      have h8 : (w.toNat - 32768) % 8 = w.toNat - 32768 := by omega
      simp only [Operand.toWord, Fin.val_ofNat, BitVec.toNat_ofNat, h8]
      omega
    · rfl

/-- A well-formed operand is the one its own word sorts into. -/
theorem ofWord_toWord {o : Operand} (h : o.wf = true) : Operand.ofWord o.toWord = o := by
  cases o with
  | lit w =>
    simp only [Operand.wf, decide_eq_true_eq] at h
    simp [Operand.toWord, Operand.ofWord, h]
  | reg i =>
    revert i
    decide
  | high w =>
    simp only [Operand.wf, decide_eq_true_eq] at h
    have h1 : ¬ w.toNat ≤ 32767 := by omega
    have h2 : ¬ w.toNat ≤ 32775 := by omega
    simp [Operand.toWord, Operand.ofWord, h1, h2]

/-- Which words sort into the register band: exactly 32768..32775 (R71). -/
theorem ofWord_eq_reg_iff {w : Word} {i : Fin 8} : Operand.ofWord w = .reg i ↔ w.toNat = 32768 + i.val := by
  constructor
  · intro h
    have h' := congrArg Operand.toWord h
    rw [toWord_ofWord] at h'
    subst h'
    simp only [Operand.toWord, BitVec.toNat_ofNat]
    omega
  · intro h
    have hw : w = (Operand.reg i).toWord := by
      apply BitVec.eq_of_toNat_eq
      simp only [Operand.toWord, BitVec.toNat_ofNat]
      omega
    rw [hw]
    exact ofWord_toWord rfl

/-- Words 0..32767 are literals (R53, band L). -/
theorem ofWord_lit {w : Word} (h : w.toNat ≤ 32767) : Operand.ofWord w = .lit w := by
  simp [Operand.ofWord, h]

/-- Words 32776..65535 are band H (R53). -/
theorem ofWord_high {w : Word} (h : 32775 < w.toNat) : Operand.ofWord w = .high w := by
  unfold Operand.ofWord
  rw [if_neg (by omega), if_neg (by omega)]

/-- No word above 21 has a format (R56). -/
theorem formatOf_illegal {w : Word} (h : 22 ≤ w.toNat) : formatOf w = none := by
  unfold formatOf
  split <;> first | rfl | omega

/-- Every word up to 21 has a format (R79). -/
theorem formatOf_legal {w : Word} (h : w.toNat ≤ 21) : ∃ f, formatOf w = some f := by
  unfold formatOf
  split <;> first | exact ⟨_, rfl⟩ | (exfalso; simp_all; omega)

/-- Opcode numbers are 0..21 (R55). -/
theorem opcode_le (i : Instr) : opcode i ≤ 21 := by cases i <;> simp [opcode]

/-- Decoding, one case per shape of the list. -/
theorem decode_cons (w : Word) (ws : List Word) : decode (w :: ws) =
    match formatOf w with
    | none => .rejected (.illegalOpcode w)
    | some f => fillFormat f ws := rfl

end Sys2Proof
end

