-- ==== Sys2Proof/Laws/State.lean ====
section
/-!
SUPPORT. One lemma per field for each named update of the state, so that no proof unfolds a record.
-/

namespace Sys2Proof.Machine

/-! ### setReg -/

@[simp] theorem setReg_regs (i : Fin 8) (v : Word) (s : State) : (setReg i v s).regs = s.regs.set i v := rfl
@[simp] theorem setReg_pc (i : Fin 8) (v : Word) (s : State) : (setReg i v s).pc = s.pc := rfl
@[simp] theorem setReg_stk (i : Fin 8) (v : Word) (s : State) : (setReg i v s).stk = s.stk := rfl
@[simp] theorem setReg_mem (i : Fin 8) (v : Word) (s : State) : (setReg i v s).mem = s.mem := rfl
@[simp] theorem setReg_run (i : Fin 8) (v : Word) (s : State) : (setReg i v s).run = s.run := rfl
@[simp] theorem setReg_fault (i : Fin 8) (v : Word) (s : State) : (setReg i v s).fault = s.fault := rfl
@[simp] theorem setReg_ia (i : Fin 8) (v : Word) (s : State) : (setReg i v s).ia = s.ia := rfl
@[simp] theorem setReg_opw (i : Fin 8) (v : Word) (s : State) : (setReg i v s).opw = s.opw := rfl
@[simp] theorem setReg_inAnswers (i : Fin 8) (v : Word) (s : State) : (setReg i v s).inAnswers = s.inAnswers := rfl
@[simp] theorem setReg_outAnswers (i : Fin 8) (v : Word) (s : State) : (setReg i v s).outAnswers = s.outAnswers := rfl
@[simp] theorem setReg_output (i : Fin 8) (v : Word) (s : State) : (setReg i v s).output = s.output := rfl

/-! ### setCell -/

@[simp] theorem setCell_regs (a v : Word) (s : State) : (setCell a v s).regs = s.regs := rfl
@[simp] theorem setCell_pc (a v : Word) (s : State) : (setCell a v s).pc = s.pc := rfl
@[simp] theorem setCell_stk (a v : Word) (s : State) : (setCell a v s).stk = s.stk := rfl
@[simp] theorem setCell_mem (a v : Word) (s : State) : (setCell a v s).mem = s.mem.writeCell a.toNat v := rfl
@[simp] theorem setCell_run (a v : Word) (s : State) : (setCell a v s).run = s.run := rfl
@[simp] theorem setCell_fault (a v : Word) (s : State) : (setCell a v s).fault = s.fault := rfl
@[simp] theorem setCell_ia (a v : Word) (s : State) : (setCell a v s).ia = s.ia := rfl
@[simp] theorem setCell_opw (a v : Word) (s : State) : (setCell a v s).opw = s.opw := rfl
@[simp] theorem setCell_inAnswers (a v : Word) (s : State) : (setCell a v s).inAnswers = s.inAnswers := rfl
@[simp] theorem setCell_outAnswers (a v : Word) (s : State) : (setCell a v s).outAnswers = s.outAnswers := rfl
@[simp] theorem setCell_output (a v : Word) (s : State) : (setCell a v s).output = s.output := rfl

/-! ### withPC -/

@[simp] theorem withPC_regs (t : Word) (s : State) : (withPC t s).regs = s.regs := rfl
@[simp] theorem withPC_pc (t : Word) (s : State) : (withPC t s).pc = t := rfl
@[simp] theorem withPC_stk (t : Word) (s : State) : (withPC t s).stk = s.stk := rfl
@[simp] theorem withPC_mem (t : Word) (s : State) : (withPC t s).mem = s.mem := rfl
@[simp] theorem withPC_run (t : Word) (s : State) : (withPC t s).run = s.run := rfl
@[simp] theorem withPC_fault (t : Word) (s : State) : (withPC t s).fault = s.fault := rfl
@[simp] theorem withPC_ia (t : Word) (s : State) : (withPC t s).ia = s.ia := rfl
@[simp] theorem withPC_opw (t : Word) (s : State) : (withPC t s).opw = s.opw := rfl
@[simp] theorem withPC_inAnswers (t : Word) (s : State) : (withPC t s).inAnswers = s.inAnswers := rfl
@[simp] theorem withPC_outAnswers (t : Word) (s : State) : (withPC t s).outAnswers = s.outAnswers := rfl
@[simp] theorem withPC_output (t : Word) (s : State) : (withPC t s).output = s.output := rfl

/-! ### withStk -/

@[simp] theorem withStk_regs (l : List Word) (s : State) : (withStk l s).regs = s.regs := rfl
@[simp] theorem withStk_pc (l : List Word) (s : State) : (withStk l s).pc = s.pc := rfl
@[simp] theorem withStk_stk (l : List Word) (s : State) : (withStk l s).stk = l := rfl
@[simp] theorem withStk_mem (l : List Word) (s : State) : (withStk l s).mem = s.mem := rfl
@[simp] theorem withStk_run (l : List Word) (s : State) : (withStk l s).run = s.run := rfl
@[simp] theorem withStk_fault (l : List Word) (s : State) : (withStk l s).fault = s.fault := rfl
@[simp] theorem withStk_ia (l : List Word) (s : State) : (withStk l s).ia = s.ia := rfl
@[simp] theorem withStk_opw (l : List Word) (s : State) : (withStk l s).opw = s.opw := rfl
@[simp] theorem withStk_inAnswers (l : List Word) (s : State) : (withStk l s).inAnswers = s.inAnswers := rfl
@[simp] theorem withStk_outAnswers (l : List Word) (s : State) : (withStk l s).outAnswers = s.outAnswers := rfl
@[simp] theorem withStk_output (l : List Word) (s : State) : (withStk l s).output = s.output := rfl

/-! ### withIns -/

@[simp] theorem withIns_regs (l : List InAnswer) (s : State) : (withIns l s).regs = s.regs := rfl
@[simp] theorem withIns_pc (l : List InAnswer) (s : State) : (withIns l s).pc = s.pc := rfl
@[simp] theorem withIns_stk (l : List InAnswer) (s : State) : (withIns l s).stk = s.stk := rfl
@[simp] theorem withIns_mem (l : List InAnswer) (s : State) : (withIns l s).mem = s.mem := rfl
@[simp] theorem withIns_run (l : List InAnswer) (s : State) : (withIns l s).run = s.run := rfl
@[simp] theorem withIns_fault (l : List InAnswer) (s : State) : (withIns l s).fault = s.fault := rfl
@[simp] theorem withIns_ia (l : List InAnswer) (s : State) : (withIns l s).ia = s.ia := rfl
@[simp] theorem withIns_opw (l : List InAnswer) (s : State) : (withIns l s).opw = s.opw := rfl
@[simp] theorem withIns_inAnswers (l : List InAnswer) (s : State) : (withIns l s).inAnswers = l := rfl
@[simp] theorem withIns_outAnswers (l : List InAnswer) (s : State) : (withIns l s).outAnswers = s.outAnswers := rfl
@[simp] theorem withIns_output (l : List InAnswer) (s : State) : (withIns l s).output = s.output := rfl

/-! ### acceptByte -/

@[simp] theorem acceptByte_regs (b : Byte) (l : List OutAnswer) (s : State) : (acceptByte b l s).regs = s.regs := rfl
@[simp] theorem acceptByte_pc (b : Byte) (l : List OutAnswer) (s : State) : (acceptByte b l s).pc = s.pc := rfl
@[simp] theorem acceptByte_stk (b : Byte) (l : List OutAnswer) (s : State) : (acceptByte b l s).stk = s.stk := rfl
@[simp] theorem acceptByte_mem (b : Byte) (l : List OutAnswer) (s : State) : (acceptByte b l s).mem = s.mem := rfl
@[simp] theorem acceptByte_run (b : Byte) (l : List OutAnswer) (s : State) : (acceptByte b l s).run = s.run := rfl
@[simp] theorem acceptByte_fault (b : Byte) (l : List OutAnswer) (s : State) : (acceptByte b l s).fault = s.fault := rfl
@[simp] theorem acceptByte_ia (b : Byte) (l : List OutAnswer) (s : State) : (acceptByte b l s).ia = s.ia := rfl
@[simp] theorem acceptByte_opw (b : Byte) (l : List OutAnswer) (s : State) : (acceptByte b l s).opw = s.opw := rfl
@[simp] theorem acceptByte_inAnswers (b : Byte) (l : List OutAnswer) (s : State) : (acceptByte b l s).inAnswers = s.inAnswers := rfl
@[simp] theorem acceptByte_outAnswers (b : Byte) (l : List OutAnswer) (s : State) : (acceptByte b l s).outAnswers = l := rfl
@[simp] theorem acceptByte_output (b : Byte) (l : List OutAnswer) (s : State) : (acceptByte b l s).output = s.output ++ [b] := rfl

/-! ### rejectByte -/

@[simp] theorem rejectByte_regs (l : List OutAnswer) (s : State) : (rejectByte l s).regs = s.regs := rfl
@[simp] theorem rejectByte_pc (l : List OutAnswer) (s : State) : (rejectByte l s).pc = s.pc := rfl
@[simp] theorem rejectByte_stk (l : List OutAnswer) (s : State) : (rejectByte l s).stk = s.stk := rfl
@[simp] theorem rejectByte_mem (l : List OutAnswer) (s : State) : (rejectByte l s).mem = s.mem := rfl
@[simp] theorem rejectByte_run (l : List OutAnswer) (s : State) : (rejectByte l s).run = s.run := rfl
@[simp] theorem rejectByte_fault (l : List OutAnswer) (s : State) : (rejectByte l s).fault = s.fault := rfl
@[simp] theorem rejectByte_ia (l : List OutAnswer) (s : State) : (rejectByte l s).ia = s.ia := rfl
@[simp] theorem rejectByte_opw (l : List OutAnswer) (s : State) : (rejectByte l s).opw = s.opw := rfl
@[simp] theorem rejectByte_inAnswers (l : List OutAnswer) (s : State) : (rejectByte l s).inAnswers = s.inAnswers := rfl
@[simp] theorem rejectByte_outAnswers (l : List OutAnswer) (s : State) : (rejectByte l s).outAnswers = l := rfl
@[simp] theorem rejectByte_output (l : List OutAnswer) (s : State) : (rejectByte l s).output = s.output := rfl

/-! ### halted -/

@[simp] theorem halted_regs (s : State) : (halted s).regs = s.regs := rfl
@[simp] theorem halted_pc (s : State) : (halted s).pc = s.pc := rfl
@[simp] theorem halted_stk (s : State) : (halted s).stk = s.stk := rfl
@[simp] theorem halted_mem (s : State) : (halted s).mem = s.mem := rfl
@[simp] theorem halted_run (s : State) : (halted s).run = .halted := rfl
@[simp] theorem halted_fault (s : State) : (halted s).fault = s.fault := rfl
@[simp] theorem halted_ia (s : State) : (halted s).ia = s.ia := rfl
@[simp] theorem halted_opw (s : State) : (halted s).opw = s.opw := rfl
@[simp] theorem halted_inAnswers (s : State) : (halted s).inAnswers = s.inAnswers := rfl
@[simp] theorem halted_outAnswers (s : State) : (halted s).outAnswers = s.outAnswers := rfl
@[simp] theorem halted_output (s : State) : (halted s).output = s.output := rfl

/-! ### beginStep -/

@[simp] theorem beginStep_regs (s : State) : (beginStep s).regs = s.regs := rfl
@[simp] theorem beginStep_pc (s : State) : (beginStep s).pc = s.pc := rfl
@[simp] theorem beginStep_stk (s : State) : (beginStep s).stk = s.stk := rfl
@[simp] theorem beginStep_mem (s : State) : (beginStep s).mem = s.mem := rfl
@[simp] theorem beginStep_run (s : State) : (beginStep s).run = s.run := rfl
@[simp] theorem beginStep_fault (s : State) : (beginStep s).fault = s.fault := rfl
@[simp] theorem beginStep_ia (s : State) : (beginStep s).ia = s.pc := rfl
@[simp] theorem beginStep_opw (s : State) : (beginStep s).opw = none := rfl
@[simp] theorem beginStep_inAnswers (s : State) : (beginStep s).inAnswers = s.inAnswers := rfl
@[simp] theorem beginStep_outAnswers (s : State) : (beginStep s).outAnswers = s.outAnswers := rfl
@[simp] theorem beginStep_output (s : State) : (beginStep s).output = s.output := rfl

/-! ### latchOpcode -/

@[simp] theorem latchOpcode_regs (w : Word) (s : State) : (latchOpcode w s).regs = s.regs := rfl
@[simp] theorem latchOpcode_pc (w : Word) (s : State) : (latchOpcode w s).pc = s.pc := rfl
@[simp] theorem latchOpcode_stk (w : Word) (s : State) : (latchOpcode w s).stk = s.stk := rfl
@[simp] theorem latchOpcode_mem (w : Word) (s : State) : (latchOpcode w s).mem = s.mem := rfl
@[simp] theorem latchOpcode_run (w : Word) (s : State) : (latchOpcode w s).run = s.run := rfl
@[simp] theorem latchOpcode_fault (w : Word) (s : State) : (latchOpcode w s).fault = s.fault := rfl
@[simp] theorem latchOpcode_ia (w : Word) (s : State) : (latchOpcode w s).ia = s.ia := rfl
@[simp] theorem latchOpcode_opw (w : Word) (s : State) : (latchOpcode w s).opw = some w := rfl
@[simp] theorem latchOpcode_inAnswers (w : Word) (s : State) : (latchOpcode w s).inAnswers = s.inAnswers := rfl
@[simp] theorem latchOpcode_outAnswers (w : Word) (s : State) : (latchOpcode w s).outAnswers = s.outAnswers := rfl
@[simp] theorem latchOpcode_output (w : Word) (s : State) : (latchOpcode w s).output = s.output := rfl

/-! ### faultEntry -/

@[simp] theorem faultEntry_regs (k : FaultKind) (s : State) : (faultEntry k s).regs = s.regs := rfl
@[simp] theorem faultEntry_pc (k : FaultKind) (s : State) : (faultEntry k s).pc = s.pc := rfl
@[simp] theorem faultEntry_stk (k : FaultKind) (s : State) : (faultEntry k s).stk = s.stk := rfl
@[simp] theorem faultEntry_mem (k : FaultKind) (s : State) : (faultEntry k s).mem = s.mem := rfl
@[simp] theorem faultEntry_run (k : FaultKind) (s : State) : (faultEntry k s).run = .faulted := rfl
@[simp] theorem faultEntry_fault (k : FaultKind) (s : State) : (faultEntry k s).fault = some ⟨k, s.ia, s.opw⟩ := rfl
@[simp] theorem faultEntry_ia (k : FaultKind) (s : State) : (faultEntry k s).ia = s.ia := rfl
@[simp] theorem faultEntry_opw (k : FaultKind) (s : State) : (faultEntry k s).opw = s.opw := rfl
@[simp] theorem faultEntry_inAnswers (k : FaultKind) (s : State) : (faultEntry k s).inAnswers = s.inAnswers := rfl
@[simp] theorem faultEntry_outAnswers (k : FaultKind) (s : State) : (faultEntry k s).outAnswers = s.outAnswers := rfl
@[simp] theorem faultEntry_output (k : FaultKind) (s : State) : (faultEntry k s).output = s.output := rfl

end Sys2Proof.Machine
end

