-- ==== Sys2Proof/Laws/Memory.lean ====
section
/-!
SUPPORT. The laws of memory: a read after a write, and that every operation keeps the canonical form.
-/

namespace Sys2Proof.Machine

/-- What a canonical list with a head says, in one place. -/
theorem wfFrom_cons {lo k : Nat} {b : Byte} {m : Memory} : Memory.wfFrom lo ((k, b) :: m) = true ↔
    lo ≤ k ∧ k < 65536 ∧ b ≠ 0#8 ∧ Memory.wfFrom (k + 1) m = true := by
  simp [Memory.wfFrom, Config.memCells, and_assoc]

theorem wfFrom_mono {lo hi : Nat} (h : lo ≤ hi) : ∀ {m : Memory}, Memory.wfFrom hi m = true → Memory.wfFrom lo m = true
  | [], _ => rfl
  | (_, _) :: _, hw => by
    rw [wfFrom_cons] at hw ⊢
    exact ⟨by omega, hw.2⟩

/-- Below the least key of a canonical list every byte is 0. -/
theorem getByte_below {a : Nat} : ∀ {lo : Nat} {m : Memory}, Memory.wfFrom lo m = true → a < lo → m.getByte a = 0#8
  | _, [], _, _ => rfl
  | lo, (k, b) :: rest, hw, ha => by
    rw [wfFrom_cons] at hw
    have hk : k ≠ a := by omega
    simp only [Memory.getByte, hk, if_false]
    exact getByte_below hw.2.2.2 (by omega)

theorem getByte_consByte_ne {a c : Nat} (b : Byte) (m : Memory) (h : c ≠ a) : (Memory.consByte a b m).getByte c = m.getByte c := by
  unfold Memory.consByte
  split
  · rfl
  · simp [Memory.getByte, Ne.symm h]

theorem getByte_consByte_same {a : Nat} (b : Byte) {m : Memory} (h : m.getByte a = 0#8) : (Memory.consByte a b m).getByte a = b := by
  unfold Memory.consByte
  split
  · rename_i hb
    rw [h, hb]
  · simp [Memory.getByte]

theorem consByte_wfFrom {lo a : Nat} (b : Byte) {m : Memory} (hlo : lo ≤ a) (ha : a < 65536)
    (h : Memory.wfFrom (a + 1) m = true) : Memory.wfFrom lo (Memory.consByte a b m) = true := by
  unfold Memory.consByte
  split
  · exact wfFrom_mono (by omega) h
  · exact wfFrom_cons.mpr ⟨hlo, ha, ‹_›, h⟩

/-- A byte other than the one written reads as before, whatever the list. -/
theorem getByte_setByte_ne {a c : Nat} (b : Byte) (h : c ≠ a) : ∀ m : Memory, (m.setByte a b).getByte c = m.getByte c
  | [] => getByte_consByte_ne b [] h
  | (k, d) :: rest => by
    have ih := getByte_setByte_ne b h rest
    simp only [Memory.setByte]
    split
    · simp only [Memory.getByte, ih]
    · split
      · have hk : k ≠ c := by omega
        rw [getByte_consByte_ne b rest h]
        simp [Memory.getByte, hk]
      · exact getByte_consByte_ne b _ h

/-- The byte written reads back, in a canonical list. -/
theorem getByte_setByte_same {a : Nat} (b : Byte) : ∀ {lo : Nat} {m : Memory}, Memory.wfFrom lo m = true →
    (m.setByte a b).getByte a = b
  | _, [], _ => getByte_consByte_same b rfl
  | lo, (k, d) :: rest, hw => by
    have hr := (wfFrom_cons.mp hw).2.2.2
    simp only [Memory.setByte]
    split
    · have : k ≠ a := by omega
      simp [Memory.getByte, this, getByte_setByte_same b hr]
    · split
      · exact getByte_consByte_same b (getByte_below hr (by omega))
      · have hk : k ≠ a := ‹_›
        apply getByte_consByte_same
        simp only [Memory.getByte, hk, if_false]
        exact getByte_below hr (by omega)

theorem setByte_wfFrom {a : Nat} (b : Byte) (ha : a < 65536) : ∀ {lo : Nat} {m : Memory}, lo ≤ a →
    Memory.wfFrom lo m = true → Memory.wfFrom lo (m.setByte a b) = true
  | _, [], hlo, _ => consByte_wfFrom b hlo ha rfl
  | lo, (k, d) :: rest, hlo, hw => by
    obtain ⟨h1, h2, h3, h4⟩ := wfFrom_cons.mp hw
    simp only [Memory.setByte]
    split
    · exact wfFrom_cons.mpr ⟨h1, h2, h3, setByte_wfFrom b ha (by omega) h4⟩
    · split
      · rename_i hk
        subst hk
        exact consByte_wfFrom b hlo ha h4
      · exact consByte_wfFrom b hlo ha (wfFrom_cons.mpr ⟨by omega, h2, h3, h4⟩)

/-- A byte write keeps the canonical form. -/
theorem setByte_wf {m : Memory} {a : Nat} (b : Byte) (ha : a < 65536) (h : m.wf = true) :
    (m.setByte a b).wf = true := setByte_wfFrom b ha (Nat.zero_le a) h

/-- A cell write keeps the canonical form. -/
theorem writeCell_wf {m : Memory} {a : Nat} (v : Word) (ha : a < 32768) (h : m.wf = true) :
    (m.writeCell a v).wf = true := setByte_wf _ (by omega) (setByte_wf _ (by omega) h)

/-- A word is its high half before its low half. -/
theorem highByte_append_lowByte (v : Word) : highByte v ++ lowByte v = v := by
  refine BitVec.eq_of_getLsbD_eq fun i hi => ?_
  simp only [highByte, lowByte, BitVec.getLsbD_append, BitVec.getLsbD_extractLsb']
  by_cases h : i < 8
  · simp [h]
  · have h8 : 8 + (i - 8) = i := by omega
    have h9 : i - 8 < 8 := by omega
    simp [h, h8, h9]

/-- The cell written reads back, all 16 bits (R32's round trip). -/
theorem readCell_writeCell_same {m : Memory} {a : Nat} (v : Word) (ha : a < 32768) (h : m.wf = true) :
    (m.writeCell a v).readCell a = v := by
  have h1 : (m.setByte (2 * a) (lowByte v)).wf = true := setByte_wf _ (by omega) h
  simp only [Memory.readCell, Memory.writeCell]
  rw [getByte_setByte_same _ h1, getByte_setByte_ne _ (by omega), getByte_setByte_same _ h, highByte_append_lowByte]

/-- Every other cell is unchanged (R32). -/
theorem readCell_writeCell_ne {m : Memory} {a b : Nat} (v : Word) (h : b ≠ a) :
    (m.writeCell a v).readCell b = m.readCell b := by
  simp only [Memory.readCell, Memory.writeCell]
  rw [getByte_setByte_ne _ (by omega), getByte_setByte_ne _ (by omega), getByte_setByte_ne _ (by omega),
    getByte_setByte_ne _ (by omega)]

theorem ofImage_wfFrom : ∀ (ws : List Word) (a : Nat), a + ws.length ≤ 32768 →
    Memory.wfFrom (2 * a) (Memory.ofImage a ws) = true
  | [], _, _ => rfl
  | w :: ws, a, h => by
    simp only [List.length_cons] at h
    exact consByte_wfFrom _ (Nat.le_refl _) (by omega) (consByte_wfFrom _ (Nat.le_refl _) (by omega)
      (ofImage_wfFrom ws (a + 1) (by omega)))

/-- The memory of an image is canonical. -/
theorem ofImage_wf (ws : List Word) (h : ws.length ≤ 32768) : (Memory.ofImage 0 ws).wf = true :=
  ofImage_wfFrom ws 0 (by omega)

/-- Reset with any image leaves a canonical memory. -/
theorem resetWith_wf (ws : List Word) (ins : List InAnswer) (outs : List OutAnswer) : (resetWith ws ins outs).mem.wf = true :=
  ofImage_wf _ (by simp)

theorem getByte_ofImage_below {c : Nat} : ∀ (ws : List Word) (a : Nat), c < 2 * a → (Memory.ofImage a ws).getByte c = 0#8
  | [], _, _ => rfl
  | w :: ws, a, h => by
    simp only [Memory.ofImage]
    rw [getByte_consByte_ne _ _ (by omega), getByte_consByte_ne _ _ (by omega), getByte_ofImage_below ws (a + 1) (by omega)]

/-- The image's word at its own cell. -/
theorem readCell_ofImage_head (w : Word) (ws : List Word) (a : Nat) : (Memory.ofImage a (w :: ws)).readCell a = w := by
  have h0 := getByte_ofImage_below (c := 2 * a) ws (a + 1) (by omega)
  have h1 := getByte_ofImage_below (c := 2 * a + 1) ws (a + 1) (by omega)
  simp only [Memory.readCell, Memory.ofImage]
  rw [getByte_consByte_ne _ _ (by omega), getByte_consByte_same _ h1, getByte_consByte_same, highByte_append_lowByte]
  rw [getByte_consByte_ne _ _ (by omega), h0]

/-- The image's later words at theirs. -/
theorem readCell_ofImage_tail (w : Word) (ws : List Word) {a b : Nat} (h : b ≠ a) :
    (Memory.ofImage a (w :: ws)).readCell b = (Memory.ofImage (a + 1) ws).readCell b := by
  simp only [Memory.readCell, Memory.ofImage]
  rw [getByte_consByte_ne _ _ (by omega), getByte_consByte_ne _ _ (by omega), getByte_consByte_ne _ _ (by omega),
    getByte_consByte_ne _ _ (by omega)]

/-- Cells are placed inside the memory only, and the canonical form is kept. -/
theorem placeWords_wf : ∀ (ws : List Word) (a : Nat) {m : Memory}, m.wf = true → (placeWords a ws m).wf = true
  | [], _, _, h => h
  | w :: ws, a, m, h => by
    simp only [placeWords]
    split
    · exact placeWords_wf ws (a + 1) (writeCell_wf w ‹_› h)
    · exact h

end Sys2Proof.Machine
end

