-- ==== Sys2Proof/Laws/Ops.lean ====
section
/-!
SUPPORT. For each shared operation, everything it can do, said once, for proofs to cite instead of unfolding it.
-/

namespace Sys2Proof.Machine

/-! ### Registers -/

@[simp] theorem getReg_setReg_same (i : Fin 8) (v : Word) (s : State) : getReg i (setReg i v s) = v := by
  simp [getReg, Vector.get_eq_getElem]

theorem getReg_setReg_ne {i j : Fin 8} (v : Word) (s : State) (h : j ≠ i) : getReg j (setReg i v s) = getReg j s := by
  have h' : i.val ≠ j.val := fun e => h (Fin.ext e.symm)
  simp [getReg, Vector.get_eq_getElem, h']

/-! ### Operands -/

@[simp] theorem resolve_lit (w : Word) (s : State) : resolve (.lit w) s = w := rfl
@[simp] theorem resolve_reg (i : Fin 8) (s : State) : resolve (.reg i) s = getReg i s := rfl
@[simp] theorem resolve_high (w : Word) (s : State) : resolve (.high w) s = w := rfl

/-- `RegSet` writes one register or raises InvalidRegister. -/
theorem regSet_cases (w : Operand) (v : Word) (s : State) :
    (∃ i, w = .reg i ∧ regSet w v s = .next (setReg i v s)) ∨
      ((∀ i, w ≠ .reg i) ∧ regSet w v s = .next (faultEntry .invalidRegister s)) := by
  cases w with
  | reg i => exact .inl ⟨i, rfl, rfl⟩
  | lit _ | high _ => exact .inr ⟨by simp, rfl⟩

/-! ### Memory -/

theorem inBounds_iff (a : Word) : inBounds a = true ↔ a.toNat ≤ 32767 := by simp [inBounds]

/-- A load gives the cell inside the bounds and nothing outside. -/
theorem load_eq_some_iff {a v : Word} {s : State} : load a s = some v ↔ a.toNat ≤ 32767 ∧ s.mem.readCell a.toNat = v := by
  simp [load, inBounds]

theorem load_eq_none_iff {a : Word} {s : State} : load a s = none ↔ 32767 < a.toNat := by simp [load, inBounds]

/-- `Store` writes one cell or raises InvalidMemory. -/
theorem store_cases (a v : Word) (s : State) :
    (a.toNat ≤ 32767 ∧ store a v s = .next (setCell a v s)) ∨
      (32767 < a.toNat ∧ store a v s = .next (faultEntry .invalidMemory s)) := by
  by_cases h : a.toNat ≤ 32767
  · exact .inl ⟨h, by simp [store, inBounds, h]⟩
  · exact .inr ⟨by omega, by simp [store, inBounds, h, raise]⟩

/-- `WriteThrough` writes one register or one cell, or raises InvalidMemory. -/
theorem writeThrough_cases (w : Operand) (v : Word) (s : State) :
    (∃ i, w = .reg i ∧ writeThrough w v s = .next (setReg i v s)) ∨
      ((∀ i, w ≠ .reg i) ∧ w.toWord.toNat ≤ 32767 ∧ writeThrough w v s = .next (setCell w.toWord v s)) ∨
      ((∀ i, w ≠ .reg i) ∧ 32767 < w.toWord.toNat ∧ writeThrough w v s = .next (faultEntry .invalidMemory s)) := by
  cases w with
  | reg i => exact .inl ⟨i, rfl, rfl⟩
  | lit a | high a =>
    rcases store_cases a v s with ⟨h, e⟩ | ⟨h, e⟩
    · exact .inr (.inl ⟨by simp, h, e⟩)
    · exact .inr (.inr ⟨by simp, h, e⟩)

/-- The address a write-through stores to, if it stores. -/
theorem writeThroughAddress_eq_some_iff {w : Operand} {a : Word} :
    writeThroughAddress w = some a ↔ (∀ i, w ≠ .reg i) ∧ a.toNat ≤ 32767 ∧ w.toWord = a := by
  cases w with
  | reg i => simp [writeThroughAddress]
  | lit b | high b =>
    simp only [writeThroughAddress, inBounds, Operand.toWord]
    by_cases h : b.toNat ≤ 32767
    · simp only [h, decide_true, if_true, Option.some.injEq]
      exact ⟨fun e => ⟨by simp, e ▸ h, e⟩, fun e => e.2.2⟩
    · simp only [h, decide_false]
      exact ⟨fun e => by simp at e, fun ⟨_, h1, h2⟩ => absurd (h2 ▸ h1) h⟩

/-- The cell stored to reads back what was stored (R32). -/
theorem readCell_setCell_same {a : Word} (v : Word) {s : State} (ha : a.toNat ≤ 32767) (h : s.mem.wf = true) :
    (setCell a v s).mem.readCell a.toNat = v := readCell_writeCell_same v (by omega) h

/-- Every other cell reads as before (R32). -/
theorem readCell_setCell_ne {a : Word} {b : Nat} (v : Word) (s : State) (h : b ≠ a.toNat) :
    (setCell a v s).mem.readCell b = s.mem.readCell b := readCell_writeCell_ne v h

theorem setCell_wf {a : Word} (v : Word) {s : State} (ha : a.toNat ≤ 32767) (h : s.mem.wf = true) :
    (setCell a v s).mem.wf = true := writeCell_wf v (by omega) h

/-! ### Program counter and stack -/

/-- `SetPC` jumps or raises InvalidMemory. -/
theorem setPC_cases (a : Word) (s : State) :
    (a.toNat ≤ 32767 ∧ setPC a s = .next (withPC a s)) ∨
      (32767 < a.toNat ∧ setPC a s = .next (faultEntry .invalidMemory s)) := by
  by_cases h : a.toNat ≤ 32767
  · exact .inl ⟨h, by simp [setPC, inBounds, h]⟩
  · exact .inr ⟨by omega, by simp [setPC, inBounds, h, raise]⟩

/-- Under the default STACK_DEPTH "a push never fails" (R15). -/
@[simp] theorem pushStk_eq (v : Word) (s : State) : pushStk v s = some (withStk (v :: s.stk) s) := rfl

/-- Under a finite STACK_DEPTH a push onto a full stack has no meaning (R76). -/
theorem pushWithin_full {d : Nat} (v : Word) {s : State} (h : d ≤ s.stk.length) : pushWithin (some d) v s = none := by
  simp [pushWithin]; omega

/-- `Pop` finds the stack empty or takes its top. -/
theorem popStk_cases (s : State) :
    (s.stk = [] ∧ popStk s = none) ∨ (∃ v rest, s.stk = v :: rest ∧ popStk s = some (v, withStk rest s)) := by
  unfold popStk
  cases h : s.stk with
  | nil => exact .inl ⟨rfl, rfl⟩
  | cons v rest => exact .inr ⟨v, rest, rfl, rfl⟩

/-- `Pop` on a stack with a top. -/
theorem popStk_cons {v : Word} {rest : List Word} {s : State} (h : s.stk = v :: rest) :
    popStk s = some (v, withStk rest s) := by simp [popStk, h]

/-- `Pop` on the empty stack. -/
theorem popStk_nil {s : State} (h : s.stk = []) : popStk s = none := by simp [popStk, h]

/-- The condition of `jt` and `jf` is true of every word but 0. -/
theorem condTrue_iff {w : Word} : condTrue w = true ↔ w ≠ 0 := by simp [condTrue, ← BitVec.toNat_inj]

/-! ### I/O boundary -/

/-- `InByte` waits, fails, or gives one byte and consumes it. -/
theorem inByte_cases (s : State) :
    (s.inAnswers = [] ∧ inByte s = .waiting) ∨
      (∃ rest, s.inAnswers = .failed :: rest ∧ inByte s = .failed (withIns rest s)) ∨
      (∃ b rest, s.inAnswers = .byte b :: rest ∧ inByte s = .got b (withIns rest s)) := by
  unfold inByte
  match h : s.inAnswers with
  | [] => exact .inl ⟨rfl, rfl⟩
  | .failed :: rest => exact .inr (.inl ⟨rest, rfl, rfl⟩)
  | .byte b :: rest => exact .inr (.inr ⟨b, rest, rfl, rfl⟩)

/-- `OutByte` appends one byte to the trace or raises WriteError. -/
theorem outByte_cases (b : Byte) (s : State) :
    (∃ rest, outByte b s = .next (acceptByte b rest s)) ∨
      (∃ rest, s.outAnswers = .failed :: rest ∧ outByte b s = .next (faultEntry .writeError (rejectByte rest s))) := by
  unfold outByte
  match s.outAnswers with
  | [] => exact .inl ⟨[], rfl⟩
  | .accepted :: rest => exact .inl ⟨rest, rfl⟩
  | .failed :: rest => exact .inr ⟨rest, rfl, rfl⟩

/-- The sink accepts when it has no answer listed or the next one is accepted. -/
theorem outByte_accepts {s : State} (b : Byte) (h : s.outAnswers.head? ≠ some .failed) :
    outByte b s = .next (acceptByte b s.outAnswers.tail s) := by
  unfold outByte
  match e : s.outAnswers with
  | [] => rfl
  | .accepted :: rest => rfl
  | .failed :: rest => simp [e] at h

/-! ### Fault entry -/

/-- Raising a fault writes `run` and the record and nothing else (R206, R207). -/
theorem faultEntry_raised (k : FaultKind) (s : State) : Raised k s (faultEntry k s) :=
  ⟨rfl, rfl, rfl, rfl, rfl, rfl, ⟨rfl, rfl⟩, ⟨rfl, rfl, rfl⟩⟩

/-- A register write is a register write and nothing else. -/
theorem setReg_wroteReg (i : Fin 8) (v : Word) (s : State) : WroteReg i v s (setReg i v s) :=
  ⟨getReg_setReg_same i v s, fun _ h => getReg_setReg_ne v s (fun e => h (e ▸ rfl)), rfl, rfl, fun _ => rfl, ⟨rfl, rfl⟩,
    ⟨rfl, rfl⟩, ⟨rfl, rfl, rfl⟩⟩

/-- A cell write in a canonical memory is a cell write and nothing else. -/
theorem setCell_wroteCell {a : Word} (v : Word) {s : State} (ha : a.toNat ≤ 32767) (h : s.mem.wf = true) :
    WroteCell a v s (setCell a v s) :=
  ⟨readCell_setCell_same v ha h, fun b hb => readCell_setCell_ne v s (fun e => hb (by simp [e])), rfl, rfl, rfl, ⟨rfl, rfl⟩,
    ⟨rfl, rfl⟩, ⟨rfl, rfl, rfl⟩⟩

/-- A pc write is a pc write and nothing else. -/
theorem withPC_wentTo (a : Word) (s : State) : WentTo a s (withPC a s) :=
  ⟨rfl, rfl, rfl, fun _ => rfl, ⟨rfl, rfl⟩, ⟨rfl, rfl⟩, ⟨rfl, rfl, rfl⟩⟩

/-! ### Fetch -/

/-- `Fetch` reads the cell at pc and moves one further, or finds pc out of bounds (R70). -/
theorem fetch_cases (s : State) :
    (s.pc.toNat ≤ 32767 ∧ fetch s = some (s.mem.readCell s.pc.toNat, withPC (s.pc + 1) s)) ∨
      (32767 < s.pc.toNat ∧ fetch s = none) := by
  by_cases h : s.pc.toNat ≤ 32767
  · exact .inl ⟨h, by simp [fetch, load, inBounds, h]⟩
  · exact .inr ⟨by omega, by simp [fetch, load, inBounds, h]⟩

/-- Fetching and going on: with the cell at pc, or into the InvalidMemory of `Fetch`. -/
theorem fetchThen_cases (s : State) (k : Word → State → Fetched) :
    (s.pc.toNat ≤ 32767 ∧ fetchThen s k = k (s.mem.readCell s.pc.toNat) (withPC (s.pc + 1) s)) ∨
      (32767 < s.pc.toNat ∧ fetchThen s k = .ended (.next (faultEntry .invalidMemory s))) := by
  rcases fetch_cases s with ⟨h, e⟩ | ⟨h, e⟩
  · exact .inl ⟨h, by simp [fetchThen, e]⟩
  · exact .inr ⟨h, by simp [fetchThen, e, raise]⟩

end Sys2Proof.Machine
end

