-- ==== Sys2Proof/Laws/Step.lean ====
section
/-!
SUPPORT. What one step of a running core can do, said once: a fault of the fetch, a fault of the decoder, or the execution
of the decoded instruction.
-/

namespace Sys2Proof.Machine

/-- How many operand words a format has (R51). -/
def arity : Format → Nat
  | .f0 _ => 0
  | .f1 _ => 1
  | .f2 _ => 2
  | .f3 _ => 3

/-- The cells from pc up, at most `n`, none past cell 32767. -/
def cellsAt (n : Nat) (s : State) : List Word :=
  (List.range (min n (32768 - s.pc.toNat))).map fun k => s.mem.readCell (s.pc.toNat + k)

theorem fetchThen_in {s : State} (k : Word → State → Fetched) (h : s.pc.toNat ≤ 32767) :
    fetchThen s k = k (s.mem.readCell s.pc.toNat) (withPC (s.pc + 1) s) := by
  rcases fetchThen_cases s k with ⟨_, e⟩ | ⟨h', _⟩
  · exact e
  · omega

theorem fetchThen_out {s : State} (k : Word → State → Fetched) (h : 32767 < s.pc.toNat) :
    fetchThen s k = .ended (.next (faultEntry .invalidMemory s)) := by
  rcases fetchThen_cases s k with ⟨h', _⟩ | ⟨_, e⟩
  · omega
  · exact e

/-- The cells from pc up, the first split off. -/
theorem cellsAt_succ {n : Nat} {s : State} (h : s.pc.toNat ≤ 32767) :
    cellsAt (n + 1) s = s.mem.readCell s.pc.toNat :: cellsAt n (withPC (s.pc + 1) s) := by
  have hp : (s.pc + 1).toNat = s.pc.toNat + 1 := by rw [BitVec.toNat_add]; simp; omega
  have hm : min (n + 1) (32768 - s.pc.toNat) = min n (32768 - (s.pc.toNat + 1)) + 1 := by omega
  simp only [cellsAt, withPC_pc, withPC_mem, hp, hm, List.range_succ_eq_map, List.map_cons, List.map_map, Nat.add_zero]
  refine congrArg _ (List.map_congr_left fun k _ => ?_)
  simp only [Function.comp]
  congr 1
  omega

/-- No cell stands at or above 32768. -/
theorem cellsAt_out {n : Nat} {s : State} (h : 32767 < s.pc.toNat) : cellsAt n s = [] := by
  have : 32768 - s.pc.toNat = 0 := by omega
  simp [cellsAt, this]

/-- Where fetching a format's operands ends: in the instruction the decoder makes of the cells at pc, with pc past the
words used, or in the InvalidMemory of `Fetch` with pc at 32768. -/
def FetchesFrom (f : Format) (s : State) : Prop :=
  ∀ n, arity f ≤ n → fetchOperands f s = match fillFormat f (cellsAt n s) with
    | .instr i _ => .ready i (withPC (s.pc + BitVec.ofNat 16 (arity f)) s)
    | .rejected _ => .ended (.next (faultEntry .invalidMemory (withPC 32768 s)))

/-- One more operand: if the format `g a` that is left after the word at pc fetches from the next pc, `f` fetches from
pc. -/
theorem fetchesFrom_succ {f : Format} {g : Word → Format} {s : State} (hs : s.pc.toNat ≤ 32768)
    (ha : ∀ a, arity f = arity (g a) + 1) (hf : fetchOperands f s = fetchThen s fun a t => fetchOperands (g a) t)
    (hw : ∀ a ws, fillFormat f (a :: ws) = fillFormat (g a) ws) (hn : fillFormat f [] = .rejected .truncated)
    (ih : ∀ a, (s.pc + 1).toNat ≤ 32768 → FetchesFrom (g a) (withPC (s.pc + 1) s)) : FetchesFrom f s := by
  intro n hle
  by_cases h : s.pc.toNat ≤ 32767
  · obtain ⟨m, rfl⟩ : ∃ m, n = m + 1 := ⟨n - 1, by have := ha 0; omega⟩
    have hp : (s.pc + 1).toNat ≤ 32768 := by rw [BitVec.toNat_add]; simp; omega
    have hpc : s.pc + 1 + BitVec.ofNat 16 (arity (g (s.mem.readCell s.pc.toNat))) = s.pc + BitVec.ofNat 16 (arity f) := by
      rw [ha (s.mem.readCell s.pc.toNat), BitVec.add_assoc, Nat.add_comm, BitVec.ofNat_add]
      rfl
    rw [hf, fetchThen_in _ h, ih _ hp m (by have := ha (s.mem.readCell s.pc.toNat); omega), cellsAt_succ h, hw,
      withPC_pc, hpc]
    rfl
  · have hp : s.pc = 32768 := by apply BitVec.eq_of_toNat_eq; simp; omega
    rw [hf, fetchThen_out _ (by omega), cellsAt_out (by omega), hn, ← hp]
    rfl

/-- Fetching operands word by word is decoding the cells at pc (R58, R80). -/
theorem fetchOperands_eq (f : Format) {s : State} (h : s.pc.toNat ≤ 32768) : FetchesFrom f s := by
  have e0 : ∀ (i : Instr) (t : State), FetchesFrom (.f0 i) t := by
    intro i t n _
    simp only [fetchOperands, fillFormat, arity, BitVec.add_zero]
    rfl
  have e1 : ∀ (mk : Operand → Instr) (t : State), t.pc.toNat ≤ 32768 → FetchesFrom (.f1 mk) t := fun mk t ht =>
    fetchesFrom_succ (g := fun a => .f0 (mk (.ofWord a))) ht (fun _ => rfl) rfl (fun _ _ => rfl) rfl (fun _ _ => e0 _ _)
  have e2 : ∀ (mk : Operand → Operand → Instr) (t : State), t.pc.toNat ≤ 32768 → FetchesFrom (.f2 mk) t := fun mk t ht =>
    fetchesFrom_succ (g := fun a => .f1 (mk (.ofWord a))) ht (fun _ => rfl) rfl (fun _ ws => by cases ws <;> rfl) rfl
      (fun _ hp => e1 _ _ hp)
  cases f with
  | f0 i => exact e0 i s
  | f1 mk => exact e1 mk s h
  | f2 mk => exact e2 mk s h
  | f3 mk =>
    exact fetchesFrom_succ (g := fun a => .f2 (mk (.ofWord a))) h (fun _ => rfl) rfl
      (fun _ ws => by rcases ws with _ | ⟨_, _ | ⟨_, _⟩⟩ <;> rfl) rfl (fun _ hp => e2 _ _ hp)

/-- What the decoder makes of a format's words: an instruction of that opcode as long as the format says, or nothing for
want of words. -/
theorem fillFormat_cases {w : Word} {f : Format} (hf : formatOf w = some f) (ws : List Word) :
    (∃ i rest, fillFormat f ws = .instr i rest ∧ w = BitVec.ofNat 16 (opcode i) ∧ (encode i).length = arity f + 1 ∧
      arity f ≤ ws.length) ∨
      (fillFormat f ws = .rejected .truncated ∧ 1 ≤ w.toNat ∧ w.toNat ≤ 20) := by
  have key : ∀ {n : Nat}, w.toNat = n → w = BitVec.ofNat 16 n := by
    rintro n rfl
    simp
  unfold formatOf at hf
  split at hf <;> simp only [Option.some.injEq, reduceCtorEq] at hf <;> subst hf <;> rename_i hw <;>
    rcases ws with _ | ⟨a, _ | ⟨b, _ | ⟨c, ws⟩⟩⟩ <;>
    first
      | exact .inl ⟨_, _, rfl, key hw, rfl, by simp [arity]⟩
      | exact .inr ⟨rfl, by omega, by omega⟩

/-- One step of a running core: the opcode fetch fails; or the opcode word is illegal; or the memory ends before the
instruction; or the instruction decoded from the cells at pc is executed. -/
theorem step_cases {s : State} (h : s.run = .running) :
    (32767 < s.pc.toNat ∧ opcodeAt s = none ∧ decode (codeWords s) = .rejected .truncated ∧
      step s = .next (faultEntry .invalidMemory (beginStep s))) ∨
    (∃ w, s.pc.toNat ≤ 32767 ∧ opcodeAt s = some w ∧ 22 ≤ w.toNat ∧ decode (codeWords s) = .rejected (.illegalOpcode w) ∧
      step s = .next (faultEntry .invalidOpCode (fetched 1 s))) ∨
    (∃ w, s.pc.toNat ≤ 32767 ∧ opcodeAt s = some w ∧ 1 ≤ w.toNat ∧ w.toNat ≤ 20 ∧
      decode (codeWords s) = .rejected .truncated ∧
      step s = .next (faultEntry .invalidMemory (withPC 32768 (fetched 1 s)))) ∨
    (∃ i rest, s.pc.toNat + (encode i).length ≤ 32768 ∧ opcodeAt s = some (BitVec.ofNat 16 (opcode i)) ∧
      decode (codeWords s) = .instr i rest ∧ step s = exec i (fetched (encode i).length s)) := by
  have hstep : step s = match fetchInstr s with
      | .ready i t => exec i t
      | .ended r => r := by
    simp only [step, nextInstr, h] <;> rfl
  by_cases hpc : s.pc.toNat ≤ 32767
  · have hop : opcodeAt s = some (s.mem.readCell s.pc.toNat) := load_eq_some_iff.mpr ⟨hpc, rfl⟩
    have hcode : codeWords s = s.mem.readCell s.pc.toNat :: cellsAt 3 (withPC (s.pc + 1) s) := cellsAt_succ (n := 3) hpc
    have hpc' : (beginStep s).pc.toNat ≤ 32767 := hpc
    simp only [fetchInstr, fetchThen_in _ hpc', beginStep_mem, beginStep_pc] at hstep
    rcases hf : formatOf (s.mem.readCell s.pc.toNat) with _ | f
    · refine .inr (.inl ⟨_, hpc, hop, ?_, by rw [hcode, decode_cons, hf], ?_⟩)
      · by_contra hlt
        obtain ⟨f, hf'⟩ := formatOf_legal (w := s.mem.readCell s.pc.toNat) (by omega)
        simp [hf] at hf'
      · rw [hstep, hf]
        simp only [fetched, hop]
        rfl
    · have hp1 : (s.pc + 1).toNat ≤ 32768 := by rw [BitVec.toNat_add]; simp; omega
      have hto := fetchOperands_eq f (s := latchOpcode (s.mem.readCell s.pc.toNat) (withPC (s.pc + 1) (beginStep s))) hp1 3
        (by cases f <;> simp [arity])
      have hcells : cellsAt 3 (latchOpcode (s.mem.readCell s.pc.toNat) (withPC (s.pc + 1) (beginStep s))) =
        cellsAt 3 (withPC (s.pc + 1) s) := rfl
      rw [hcells] at hto
      rw [hf] at hstep
      have hdec : decode (codeWords s) = fillFormat f (cellsAt 3 (withPC (s.pc + 1) s)) := by
        rw [hcode, decode_cons, hf]
      rcases fillFormat_cases hf (cellsAt 3 (withPC (s.pc + 1) s)) with ⟨i, rest, e, hi, hl, ha⟩ | ⟨e, h1, h2⟩
      · refine .inr (.inr (.inr ⟨i, rest, ?_, by rw [hop, ← hi], by rw [hdec, e], ?_⟩))
        · simp only [cellsAt, List.length_map, List.length_range, withPC_pc] at ha
          have hp : (s.pc + 1).toNat = s.pc.toNat + 1 := by rw [BitVec.toNat_add]; simp; omega
          rw [hp] at ha
          omega
        have hst : withPC (s.pc + 1 + BitVec.ofNat 16 (arity f))
            (latchOpcode (s.mem.readCell s.pc.toNat) (withPC (s.pc + 1) (beginStep s))) = fetched (encode i).length s := by
          simp only [fetched, hop, hl, BitVec.add_assoc, Nat.add_comm (arity f) 1, BitVec.ofNat_add]
          rfl
        simp only [hto, e, latchOpcode_pc, withPC_pc, hst] at hstep
        exact hstep
      · refine .inr (.inr (.inl ⟨_, hpc, hop, h1, h2, by rw [hdec, e], ?_⟩))
        simp only [hto, e] at hstep
        rw [hstep]
        simp only [fetched, hop]
        rfl
  · have hout : 32767 < (beginStep s).pc.toNat := by simp only [beginStep_pc]; omega
    simp only [fetchInstr, fetchThen_out _ hout] at hstep
    exact .inl ⟨by omega, load_eq_none_iff.mpr (by omega),
      by rw [show codeWords s = [] from cellsAt_out (n := 4) (by omega)]; rfl, hstep⟩

end Sys2Proof.Machine
end

