-- ==== Sys2Proof/Laws/Exec.lean ====
section
/-!
SUPPORT. What executing an instruction can do, said once for all 22: what it may have done to the stack and the boundary
first, and how it then ends. Every frame, invariant and whole-machine rule is a case split on `exec_cases`
(`effect_of_exec`, `step_effect` when the answer is a next state).
-/

namespace Sys2Proof.Machine

/-- What instruction `i` may have done before its last statement. -/
inductive Before (i : Instr) (s : State) : State → Prop
  | nothing : Before i s s
  | pushed (v : Word) : opcode i ∈ [2, 17] → Before i s (withStk (v :: s.stk) s)
  | popped (v : Word) (rest : List Word) : s.stk = v :: rest → opcode i ∈ [3, 18] → Before i s (withStk rest s)
  | readOne (x : InAnswer) (rest : List InAnswer) : s.inAnswers = x :: rest → opcode i = 20 → Before i s (withIns rest s)
  | readTwo (x y : InAnswer) (rest : List InAnswer) : s.inAnswers = x :: y :: rest → opcode i = 20 →
      Before i s (withIns rest s)
  | refused (rest : List OutAnswer) : opcode i = 19 → Before i s (rejectByte rest s)

/-- How instruction `i` may end, from the state before its last statement. -/
inductive Ending (i : Instr) (u : State) : State → Prop
  | done : Ending i u u
  | halt : i = .halt → Ending i u (halted u)
  | fault (k : FaultKind) : raisableBy k (some (BitVec.ofNat 16 (opcode i))) = true → Ending i u (faultEntry k u)
  | reg (j : Fin 8) (v : Word) : destination i = some (.reg j) → Ending i u (setReg j v u)
  | cell (a v : Word) : a.toNat ≤ 32767 → storeAddress i u = some a → Ending i u (setCell a v u)
  | jump (a : Word) : a.toNat ≤ 32767 → transfersControl i u = true → Ending i u (withPC a u)
  | wrote (b : Byte) (rest : List OutAnswer) : opcode i = 19 → Ending i u (acceptByte b rest u)

/-- A next state of `i` in `s`, reached by one way before the last statement and one way of ending. -/
def Effect (i : Instr) (s : State) (r : Result) : Prop := ∃ u t, r = .next t ∧ Before i s u ∧ Ending i u t

theorem Effect.ofRegSet {i : Instr} {s u : State} (w : Operand) (v : Word) (hb : Before i s u)
    (h1 : destination i = some w)
    (h2 : raisableBy .invalidRegister (some (BitVec.ofNat 16 (opcode i))) = true) : Effect i s (regSet w v u) := by
  rcases regSet_cases w v u with ⟨j, rfl, e⟩ | ⟨_, e⟩
  · exact ⟨u, _, e, hb, .reg j v h1⟩
  · exact ⟨u, _, e, hb, .fault _ h2⟩

theorem Effect.ofStore {i : Instr} {s u : State} (a v : Word) (hb : Before i s u)
    (h1 : a.toNat ≤ 32767 → storeAddress i u = some a)
    (h2 : raisableBy .invalidMemory (some (BitVec.ofNat 16 (opcode i))) = true) : Effect i s (store a v u) := by
  rcases store_cases a v u with ⟨h, e⟩ | ⟨_, e⟩
  · exact ⟨u, _, e, hb, .cell a v h (h1 h)⟩
  · exact ⟨u, _, e, hb, .fault _ h2⟩

theorem Effect.ofWriteThrough {i : Instr} {s u : State} (w : Operand) (v : Word) (hb : Before i s u)
    (h1 : destination i = some w) (h3 : storeAddress i u = writeThroughAddress w) (h2 : raisableBy .invalidMemory (some (BitVec.ofNat 16 (opcode i))) = true) :
    Effect i s (writeThrough w v u) := by
  cases w with
  | reg j => exact ⟨u, _, rfl, hb, .reg j v h1⟩
  | lit a | high a => exact Effect.ofStore a v hb (fun h => h3.trans (writeThroughAddress_eq_some_iff.mpr ⟨by simp, h, rfl⟩)) h2

theorem Effect.ofSetPC {i : Instr} {s u : State} (a : Word) (hb : Before i s u) (h1 : transfersControl i u = true)
    (h2 : raisableBy .invalidMemory (some (BitVec.ofNat 16 (opcode i))) = true) : Effect i s (setPC a u) := by
  rcases setPC_cases a u with ⟨h, e⟩ | ⟨_, e⟩
  · exact ⟨u, _, e, hb, .jump a h h1⟩
  · exact ⟨u, _, e, hb, .fault _ h2⟩

theorem Effect.ofRaise {i : Instr} {s u : State} (k : FaultKind) (hb : Before i s u)
    (h : raisableBy k (some (BitVec.ofNat 16 (opcode i))) = true) : Effect i s (raise k u) :=
  ⟨u, _, rfl, hb, .fault k h⟩

/-- An `in` whose source has not answered has no step (R22, R83). -/
theorem exec_inp_unanswered (a : Operand) {s : State} (h : Unanswered s) :
    exec (.inp a) s = .fault .waitingForInput := by
  rcases h with h | h <;> simp [exec, execInp, inByte, h, waitForInput, withIns, Config.carriageReturn]

/-- Executing any other instruction, or an `in` that is answered, answers a next state (R86), and this is all it can be. -/
theorem exec_effect (i : Instr) (s : State) (hw : ∀ a, i = .inp a → ¬ Unanswered s) : Effect i s (exec i s) := by
  cases i with
  | halt => exact ⟨s, _, rfl, .nothing, .halt rfl⟩
  | noop => exact ⟨s, _, rfl, .nothing, .done⟩
  | set a b | add a b c | mult a b c | and a b c | or a b c | not a b =>
    exact Effect.ofRegSet a _ .nothing rfl rfl
  | mod a b c =>
    simp only [exec, execMod]
    split
    · exact Effect.ofRaise _ .nothing rfl
    · exact Effect.ofRegSet a _ .nothing rfl rfl
  | push a => exact ⟨_, _, rfl, .pushed (resolve a s) (by simp [opcode]), .done⟩
  | pop a =>
    simp only [exec, execPop]
    rcases popStk_cases s with ⟨_, e⟩ | ⟨v, rest, hs, e⟩ <;> simp only [e]
    · exact Effect.ofRaise _ .nothing rfl
    · exact Effect.ofWriteThrough a v (.popped v rest hs (by simp [opcode])) rfl rfl rfl
  | eq a b c | gt a b c => exact Effect.ofWriteThrough a _ .nothing rfl rfl rfl
  | jmp a => exact Effect.ofSetPC _ .nothing rfl rfl
  | jt a b | jf a b =>
    simp only [exec, execJt, execJf]
    split
    all_goals first
      | exact ⟨s, _, rfl, .nothing, .done⟩
      | exact Effect.ofSetPC _ .nothing (by simp_all [transfersControl]) rfl
  | rmem a b =>
    simp only [exec, execRmem]
    split
    · exact Effect.ofRaise _ .nothing rfl
    · exact Effect.ofRegSet a _ .nothing rfl rfl
  | wmem a b => exact Effect.ofStore _ _ .nothing (fun h => by simp [storeAddress, inBounds, h]) rfl
  | call a => exact Effect.ofSetPC _ (.pushed s.pc (by simp [opcode])) rfl rfl
  | ret =>
    simp only [exec, execRet]
    rcases popStk_cases s with ⟨_, e⟩ | ⟨v, rest, hs, e⟩ <;> simp only [e]
    · exact Effect.ofRaise _ .nothing rfl
    · exact Effect.ofSetPC v (.popped v rest hs (by simp [opcode])) rfl rfl
  | out a =>
    rcases outByte_cases (lowByte (resolve a s)) s with ⟨rest, e⟩ | ⟨rest, _, e⟩
    · exact ⟨s, _, e, .nothing, .wrote _ rest rfl⟩
    · exact ⟨_, _, e, .refused rest rfl, .fault _ rfl⟩
  | inp a =>
    simp only [exec, execInp]
    rcases inByte_cases s with ⟨hs, _⟩ | ⟨rest, hs, e⟩ | ⟨b, rest, hs, e⟩
    · exact absurd (.inl hs) (hw a rfl)
    all_goals simp only [e]
    · exact Effect.ofRaise _ (.readOne _ rest hs rfl) rfl
    · split
      · rename_i h13
        rcases inByte_cases (withIns rest s) with ⟨hs', _⟩ | ⟨rest', hs', e⟩ | ⟨b', rest', hs', e⟩ <;>
          simp only [withIns_inAnswers] at hs'
        · exact absurd (.inr (by rw [hs, hs', h13])) (hw a rfl)
        all_goals simp only [e]
        · exact Effect.ofRaise _ (.readTwo _ _ rest' (hs' ▸ hs) rfl) rfl
        · exact Effect.ofRegSet a _ (.readTwo _ _ rest' (hs' ▸ hs) rfl) rfl rfl
      · exact Effect.ofRegSet a _ (.readOne _ rest hs rfl) rfl rfl

/-- Executing any instruction in any state has its effect, or is an `in` whose source has not answered (R83, R86). -/
theorem exec_cases (i : Instr) (s : State) :
    Effect i s (exec i s) ∨ ((∃ a, i = .inp a) ∧ Unanswered s ∧ exec i s = .fault .waitingForInput) := by
  by_cases h : (∃ a, i = .inp a) ∧ Unanswered s
  · obtain ⟨⟨a, rfl⟩, h⟩ := h
    exact .inr ⟨⟨a, rfl⟩, h, exec_inp_unanswered a h⟩
  · exact .inl (exec_effect i s fun a ha hs => h ⟨⟨a, ha⟩, hs⟩)

/-- What an instruction that answers a next state has done. -/
theorem effect_of_exec {i : Instr} {s t : State} (e : exec i s = .next t) : ∃ u, Before i s u ∧ Ending i u t := by
  rcases exec_cases i s with ⟨u, t', e', hb, he⟩ | ⟨_, _, e'⟩ <;> rw [e'] at e <;> cases e
  exact ⟨u, hb, he⟩

/-! ### What is settled before the last statement -/

theorem Before.run {i : Instr} {s u : State} (h : Before i s u) : u.run = s.run := by cases h <;> rfl
theorem Before.fault {i : Instr} {s u : State} (h : Before i s u) : u.fault = s.fault := by cases h <;> rfl
theorem Before.regs {i : Instr} {s u : State} (h : Before i s u) : u.regs = s.regs := by cases h <;> rfl
theorem Before.mem {i : Instr} {s u : State} (h : Before i s u) : u.mem = s.mem := by cases h <;> rfl
theorem Before.pc {i : Instr} {s u : State} (h : Before i s u) : u.pc = s.pc := by cases h <;> rfl
theorem Before.ia {i : Instr} {s u : State} (h : Before i s u) : u.ia = s.ia := by cases h <;> rfl
theorem Before.opw {i : Instr} {s u : State} (h : Before i s u) : u.opw = s.opw := by cases h <;> rfl
theorem Before.output {i : Instr} {s u : State} (h : Before i s u) : u.output = s.output := by cases h <;> rfl

/-! ### What an instruction stores to, and whether it jumps, depends on the registers alone -/

theorem resolve_congr {s u : State} (w : Operand) (h : u.regs = s.regs) : resolve w u = resolve w s := by
  cases w <;> simp [resolve, regGet, getReg, h]

theorem storeAddress_congr {s u : State} (i : Instr) (h : u.regs = s.regs) : storeAddress i u = storeAddress i s := by
  cases i <;> simp only [storeAddress, resolve_congr _ h]

theorem transfersControl_congr {s u : State} (i : Instr) (h : u.regs = s.regs) :
    transfersControl i u = transfersControl i s := by
  cases i <;> simp only [transfersControl, resolve_congr _ h]

/-! ### A whole step -/

/-- A state with a next state is running (R83). -/
theorem running_of_step {s t : State} (e : step s = .next t) : s.run = .running := by
  cases h : s.run with
  | running => rfl
  | halted | faulted => simp [step, nextInstr, h] at e

/-- `step_cases` and `effect_of_exec` together: everything a step that answers a next state can have done. -/
theorem step_effect {s t : State} (e : step s = .next t) :
    (32767 < s.pc.toNat ∧ opcodeAt s = none ∧ decode (codeWords s) = .rejected .truncated ∧
      t = faultEntry .invalidMemory (beginStep s)) ∨
    (∃ w, s.pc.toNat ≤ 32767 ∧ opcodeAt s = some w ∧ 22 ≤ w.toNat ∧ decode (codeWords s) = .rejected (.illegalOpcode w) ∧
      t = faultEntry .invalidOpCode (fetched 1 s)) ∨
    (∃ w, s.pc.toNat ≤ 32767 ∧ opcodeAt s = some w ∧ 1 ≤ w.toNat ∧ w.toNat ≤ 20 ∧
      decode (codeWords s) = .rejected .truncated ∧ t = faultEntry .invalidMemory (withPC 32768 (fetched 1 s))) ∨
    (∃ i rest u, s.pc.toNat + (encode i).length ≤ 32768 ∧ opcodeAt s = some (BitVec.ofNat 16 (opcode i)) ∧
      decode (codeWords s) = .instr i rest ∧ Before i (fetched (encode i).length s) u ∧ Ending i u t) := by
  rcases step_cases (running_of_step e) with ⟨h1, h2, h3, h⟩ | ⟨w, h1, h2, h3, h4, h⟩ | ⟨w, h1, h2, h3, h4, h5, h⟩ |
    ⟨i, rest, h1, h2, h3, h⟩ <;> rw [h] at e
  · cases e
    exact .inl ⟨h1, h2, h3, rfl⟩
  · cases e
    exact .inr (.inl ⟨w, h1, h2, h3, h4, rfl⟩)
  · cases e
    exact .inr (.inr (.inl ⟨w, h1, h2, h3, h4, h5, rfl⟩))
  · obtain ⟨u, hb, he⟩ := effect_of_exec e
    exact .inr (.inr (.inr ⟨i, rest, u, h1, h2, h3, hb, he⟩))

end Sys2Proof.Machine
end

