-- ==== Sys2Proof/Laws/PerInstr.lean ====
section
/-!
SUPPORT. What holds of every instruction as syntax, one lemma per constructor: `Rebuild`, the opcode word of an
instruction has the format that makes it of its own operands (30_encoding.md rules R51, R55).
-/

namespace Sys2Proof.Laws

/-- The instruction a format makes of a list of operands of the right length. -/
def rebuild : Format → List Operand → Option Instr
  | .f0 i, [] => some i
  | .f1 mk, [a] => some (mk a)
  | .f2 mk, [a, b] => some (mk a b)
  | .f3 mk, [a, b, c] => some (mk a b c)
  | _, _ => none

/-- The opcode word of `i` names a format, and it rebuilds `i` from its operands. -/
def Rebuild.Statement (i : Instr) : Prop :=
  opcode i ≤ 21 ∧ ∃ f, formatOf (BitVec.ofNat 16 (opcode i)) = some f ∧ rebuild f i.operands = some i

theorem Rebuild.halt : Rebuild.Statement .halt := ⟨Nat.le_of_ble_eq_true rfl, _, rfl, rfl⟩
theorem Rebuild.set (a b : Operand) : Rebuild.Statement (.set a b) := ⟨Nat.le_of_ble_eq_true rfl, _, rfl, rfl⟩
theorem Rebuild.push (a : Operand) : Rebuild.Statement (.push a) := ⟨Nat.le_of_ble_eq_true rfl, _, rfl, rfl⟩
theorem Rebuild.pop (a : Operand) : Rebuild.Statement (.pop a) := ⟨Nat.le_of_ble_eq_true rfl, _, rfl, rfl⟩
theorem Rebuild.eq (a b c : Operand) : Rebuild.Statement (.eq a b c) := ⟨Nat.le_of_ble_eq_true rfl, _, rfl, rfl⟩
theorem Rebuild.gt (a b c : Operand) : Rebuild.Statement (.gt a b c) := ⟨Nat.le_of_ble_eq_true rfl, _, rfl, rfl⟩
theorem Rebuild.jmp (a : Operand) : Rebuild.Statement (.jmp a) := ⟨Nat.le_of_ble_eq_true rfl, _, rfl, rfl⟩
theorem Rebuild.jt (a b : Operand) : Rebuild.Statement (.jt a b) := ⟨Nat.le_of_ble_eq_true rfl, _, rfl, rfl⟩
theorem Rebuild.jf (a b : Operand) : Rebuild.Statement (.jf a b) := ⟨Nat.le_of_ble_eq_true rfl, _, rfl, rfl⟩
theorem Rebuild.add (a b c : Operand) : Rebuild.Statement (.add a b c) := ⟨Nat.le_of_ble_eq_true rfl, _, rfl, rfl⟩
theorem Rebuild.mult (a b c : Operand) : Rebuild.Statement (.mult a b c) := ⟨Nat.le_of_ble_eq_true rfl, _, rfl, rfl⟩
theorem Rebuild.mod (a b c : Operand) : Rebuild.Statement (.mod a b c) := ⟨Nat.le_of_ble_eq_true rfl, _, rfl, rfl⟩
theorem Rebuild.and (a b c : Operand) : Rebuild.Statement (.and a b c) := ⟨Nat.le_of_ble_eq_true rfl, _, rfl, rfl⟩
theorem Rebuild.or (a b c : Operand) : Rebuild.Statement (.or a b c) := ⟨Nat.le_of_ble_eq_true rfl, _, rfl, rfl⟩
theorem Rebuild.not (a b : Operand) : Rebuild.Statement (.not a b) := ⟨Nat.le_of_ble_eq_true rfl, _, rfl, rfl⟩
theorem Rebuild.rmem (a b : Operand) : Rebuild.Statement (.rmem a b) := ⟨Nat.le_of_ble_eq_true rfl, _, rfl, rfl⟩
theorem Rebuild.wmem (a b : Operand) : Rebuild.Statement (.wmem a b) := ⟨Nat.le_of_ble_eq_true rfl, _, rfl, rfl⟩
theorem Rebuild.call (a : Operand) : Rebuild.Statement (.call a) := ⟨Nat.le_of_ble_eq_true rfl, _, rfl, rfl⟩
theorem Rebuild.ret : Rebuild.Statement .ret := ⟨Nat.le_of_ble_eq_true rfl, _, rfl, rfl⟩
theorem Rebuild.out (a : Operand) : Rebuild.Statement (.out a) := ⟨Nat.le_of_ble_eq_true rfl, _, rfl, rfl⟩
theorem Rebuild.inp (a : Operand) : Rebuild.Statement (.inp a) := ⟨Nat.le_of_ble_eq_true rfl, _, rfl, rfl⟩
theorem Rebuild.noop : Rebuild.Statement .noop := ⟨Nat.le_of_ble_eq_true rfl, _, rfl, rfl⟩

end Sys2Proof.Laws
end

