-- ==== Sys2Proof/Tests/Slice0.lean ====
section
/-!
SUPPORT. Tests: vectors of 95_test_vectors.md and examples of the instruction rules, each one step on a small state; the
decoder on written-out words; ill-formed terms the well-formedness check refuses; and for every statement with hypotheses
a state that meets them.
-/

namespace Sys2Proof.Tests

open Sys2Proof Sys2Proof.Machine

/-- Reset with an image, a source that gives no answer and a sink that accepts. -/
def start (image : List Word) : State := resetWith image [] []

/-- What a result's next state shows under `f`; `none` for a fault or a refusal. -/
def after {α : Type} (r : Result) (f : State → α) : Option α :=
  match r with
  | .next t => some (f t)
  | .fault _ | .refused _ => none

/-- Reset with words in the last cells, from `a` up, and pc there. -/
def high (a : Word) (ws : List Word) : State := { start [] with pc := a, mem := placeWords a.toNat ws [] }

/-! ### Well-formedness -/

theorem test_wf_accepts : (Instr.add (.reg 7) (.lit 32767) (.high 32776)).wf = true := by decide
theorem test_wf_refuses_literal_above_band_L : (Instr.push (.lit 32768)).wf = false := by decide
theorem test_wf_refuses_high_below_band_H : (Instr.set (.reg 0) (.high 32775)).wf = false := by decide

/-! ### Decoding words written out from R55 and R53, one or more per family -/

theorem test_decode_halt : decode [0x0000] = .instr .halt [] := by decide
theorem test_decode_noop : decode [0x0015] = .instr .noop [] := by decide
theorem test_decode_set : decode [0x0001, 0x8000, 0x0005] = .instr (.set (.reg 0) (.lit 5)) [] := by decide
theorem test_decode_push : decode [0x0002, 0x9C40] = .instr (.push (.high 40000)) [] := by decide
theorem test_decode_pop : decode [0x0003, 0x0064, 0x0000] = .instr (.pop (.lit 100)) [0] := by decide
theorem test_decode_eq : decode [0x0004, 0x8000, 0x8001, 0x8002] = .instr (.eq (.reg 0) (.reg 1) (.reg 2)) [] := by decide
theorem test_decode_gt : decode [0x0005, 0x8007, 0x8008, 0x7FFF] = .instr (.gt (.reg 7) (.high 32776) (.lit 32767)) [] := by
  decide
theorem test_decode_jmp : decode [0x0006, 0x0003] = .instr (.jmp (.lit 3)) [] := by decide
theorem test_decode_jt : decode [0x0007, 0x8001, 0x0003] = .instr (.jt (.reg 1) (.lit 3)) [] := by decide
theorem test_decode_jf : decode [0x0008, 0x0000, 0x8001] = .instr (.jf (.lit 0) (.reg 1)) [] := by decide
theorem test_decode_add : decode [0x0009, 0x8000, 0x7FFF, 0x0001] = .instr (.add (.reg 0) (.lit 32767) (.lit 1)) [] := by decide
theorem test_decode_mult : decode [0x000A, 0x8000, 0x8000, 0x0002] = .instr (.mult (.reg 0) (.reg 0) (.lit 2)) [] := by decide
theorem test_decode_mod : decode [0x000B, 0x8000, 0x0011, 0x0005] = .instr (.mod (.reg 0) (.lit 17) (.lit 5)) [] := by decide
theorem test_decode_and : decode [0x000C, 0x8003, 0x000C, 0x000A] = .instr (.and (.reg 3) (.lit 12) (.lit 10)) [] := by decide
theorem test_decode_or : decode [0x000D, 0x8004, 0x000C, 0x000A] = .instr (.or (.reg 4) (.lit 12) (.lit 10)) [] := by decide
theorem test_decode_not : decode [0x000E, 0x8005, 0x0000] = .instr (.not (.reg 5) (.lit 0)) [] := by decide
theorem test_decode_rmem : decode [0x000F, 0x8006, 0x0003] = .instr (.rmem (.reg 6) (.lit 3)) [] := by decide
theorem test_decode_wmem : decode [0x0010, 0x000A, 0x004D] = .instr (.wmem (.lit 10) (.lit 77)) [] := by decide
theorem test_decode_call : decode [0x0011, 0x0004] = .instr (.call (.lit 4)) [] := by decide
theorem test_decode_ret : decode [0x0012] = .instr .ret [] := by decide
theorem test_decode_out : decode [0x0013, 0x8000] = .instr (.out (.reg 0)) [] := by decide
theorem test_decode_in : decode [0x0014, 0x8000] = .instr (.inp (.reg 0)) [] := by decide
theorem test_decode_illegal_22 : decode [0x0016, 0x0000] = .rejected (.illegalOpcode 22) := by decide
theorem test_decode_illegal_register_word : decode [0x8000] = .rejected (.illegalOpcode 32768) := by decide
theorem test_decode_truncated : decode [0x0009, 0x8000, 0x0001] = .rejected .truncated := by decide
theorem test_table_word_counts_from_the_first_word :
    decodeTableWord 48 (1 + 32768 * 65536 + 5 * 65536 * 65536) = some (.set (.reg 0) (.lit 5)) := by decide
theorem test_table_word_bits_above_are_zero : decodeTableWord 16 9 = some (.add (.lit 0) (.lit 0) (.lit 0)) := by decide
theorem test_fetch_word_runs :
    after (step (State.reset.withFetchWord 48 (16 + 10 * 65536 + 77 * 65536 * 65536))) (fun t => (t.pc, t.mem.readCell 10)) =
      some (3, 77) := by decide

/-! ### Vectors (95_test_vectors.md; the name ends in the vector's id) -/

theorem test_halt_VH1 : after (step (start [0])) (fun t => (t.run, t.pc)) = some (.halted, 1) := by decide
theorem test_halt_at_last_cell_VH3 : after (step (high 32767 [0])) (fun t => (t.run, t.pc)) = some (.halted, 32768) := by decide
theorem test_noop_at_last_cell_VH4 : after (step (high 32767 [21])) (fun t => (t.run, t.pc)) = some (.running, 32768) := by decide
theorem test_fetch_at_32768_VH4 : after (step { start [] with pc := 32768 }) (fun t => (t.run, t.pc, t.fault)) =
    some (.faulted, 32768, some ⟨.invalidMemory, 32768, none⟩) := by decide
theorem test_illegal_VH6 : after (step (setReg 0 21 (start [32768]))) (fun t => (t.pc, t.fault)) =
    some (1, some ⟨.invalidOpCode, 0, some 32768⟩) := by decide
theorem test_cut_off_VH8 : after (step (high 32765 [9, 32768, 1])) (fun t => (t.pc, t.fault)) =
    some (32768, some ⟨.invalidMemory, 32765, some 9⟩) := by decide
theorem test_fault_code_R201 : after (step (start [22])) faultCode = some 2 ∧ faultCode State.reset = 0 := by decide
theorem test_set_VA4 : after (step (setReg 1 32768 (setReg 0 3 (start [1, 32768, 32769, 0])))) (fun t => (getReg 0 t, t.pc)) =
    some (32768, 3) := by decide
theorem test_set_literal_VA2 : after (step (start [1, 5, 7, 0])) (fun t => (t.fault, t.pc, t.mem.readCell 5)) =
    some (some ⟨.invalidRegister, 0, some 1⟩, 3, 0) := by decide
theorem test_push_VA8 : after (step (setReg 3 123 (start [2, 32771, 0]))) (fun t => t.stk) = some [123] := by decide
theorem test_push_high_VA7 : after (step (start [2, 40000, 0])) (fun t => (t.stk, t.pc)) = some ([40000], 2) := by decide
theorem test_pop_memory_VA9 : after (step (withStk [555] (start [3, 100, 0]))) (fun t => (t.stk, t.mem.readCell 100)) =
    some ([], 555) := by decide
theorem test_pop_bad_VA12 : after (step (withStk [1, 2] (start [3, 40000, 0]))) (fun t => (t.stk, t.fault)) =
    some ([2], some ⟨.invalidMemory, 0, some 3⟩) := by decide
theorem test_eq_VE3 : after (step (setReg 0 9 (start [4, 32768, 40000, 7232, 0]))) (getReg 0) = some 0 := by decide
theorem test_eq_memory_VE4 : after (step (start [4, 100, 4, 4, 0])) (fun t => t.mem.readCell 100) = some 1 := by decide
theorem test_gt_VG4 : after (step (setReg 1 32768 (start [5, 32768, 32769, 32767, 0]))) (getReg 0) = some 1 := by decide
theorem test_gt_equal_VG2 : after (step (setReg 0 9 (start [5, 32768, 5, 5, 0]))) (getReg 0) = some 0 := by decide
theorem test_jmp_VJ2 : after (step (setReg 0 3 (start [6, 32768, 22, 0]))) (fun t => t.pc) = some 3 := by decide
theorem test_jmp_VJ4 : after (step (setReg 0 32768 (start [6, 32768]))) (fun t => (t.pc, t.fault)) =
    some (2, some ⟨.invalidMemory, 0, some 6⟩) := by decide
theorem test_jt_raw_VJ8 : after (step (setReg 1 4 (setReg 0 1 (start [7, 32768, 32769, 0])))) (fun t => (t.pc, t.fault)) =
    some (3, some ⟨.invalidMemory, 0, some 7⟩) := by decide
theorem test_jt_untaken_VJ9 : after (step (start [7, 0, 65535, 0])) (fun t => (t.pc, t.run)) = some (3, .running) := by decide
theorem test_jf_VJ12 : after (step (start [8, 0, 4, 22, 0])) (fun t => t.pc) = some 4 := by decide
theorem test_jf_VJ16 : after (step (setReg 0 32768 (start [8, 32768, 4, 0]))) (fun t => t.pc) = some 3 := by decide
theorem test_call_VK4 : after (step (high 32766 [17, 5])) (fun t => (t.stk, t.pc)) = some ([32768], 5) := by decide
theorem test_call_bad_VK3 : after (step (start [17, 40000, 0])) (fun t => (t.stk, t.pc, t.run)) = some ([2], 2, .faulted) := by decide
theorem test_ret_VK8 : after (step (withStk [40000, 3] (start [18]))) (fun t => (t.stk, t.pc, t.run)) = some ([3], 1, .faulted) := by
  decide
theorem test_ret_empty_VK10 : after (step (start [18])) (fun t => (t.fault, t.pc)) = some (some ⟨.stackEmpty, 0, some 18⟩, 1) := by
  decide
theorem test_add_VL1 : after (step (setReg 0 9 (start [9, 32768, 32767, 1]))) (fun t => (getReg 0 t, t.pc)) = some (0, 4) := by decide
theorem test_add_VL4 : after (step (setReg 0 20000 (start [9, 32768, 32768, 32768]))) (getReg 0) = some 7232 := by decide
theorem test_mult_VL9 : after (step (start [10, 32768, 32767, 32767])) (getReg 0) = some 1 := by decide
theorem test_mult_VL8 : after (step (start [10, 32768, 300, 200])) (getReg 0) = some 27232 := by decide
theorem test_mod_VL19 : after (step (start [11, 32768, 40000, 50000])) (getReg 0) = some 40000 := by decide
theorem test_mod_zero_VL24 : after (step (start [11, 5, 5, 0, 0])) (fun t => (t.fault, t.pc)) =
    some (some ⟨.modByZero, 0, some 11⟩, 4) := by decide
theorem test_and_VL27 : after (step (start [12, 32768, 65535, 40000])) (getReg 0) = some 40000 := by decide
theorem test_or_VL32 : after (step (start [13, 32768, 32776, 0])) (getReg 0) = some 32776 := by decide
theorem test_not_VL38 : after (step (start [14, 32768, 40000])) (fun t => (getReg 0 t, t.pc)) = some (25535, 3) := by decide
theorem test_not_VL35 : after (step (setReg 0 9 (start [14, 32768, 32767]))) (getReg 0) = some 0 := by decide
theorem test_rmem_VM2 : after (step (setReg 0 5 (start [15, 32768, 32768, 0, 0, 777]))) (getReg 0) = some 777 := by decide
theorem test_rmem_VM4 : after (step (start [15, 5, 40000, 0])) (fun t => t.fault) = some (some ⟨.invalidMemory, 0, some 15⟩) := by decide
theorem test_wmem_VM11 : after (step (setReg 1 65535 (setReg 0 10 (start [16, 32768, 32769, 0])))) (fun t => (t.mem.readCell 10, getReg 0 t)) =
    some (65535, 10) := by decide
theorem test_wmem_zero_keeps_the_form_VM16 : after (step (start [16, 3, 0, 21, 21, 0])) (fun t => (t.mem.readCell 3, t.mem.wf)) =
    some (0, true) := by decide
theorem test_out_VO3 : after (step (start [19, 40000, 0])) (fun t => t.output) = some [64] := by decide
theorem test_out_VO6 : after (step (resetWith [19, 65, 0] [] [.failed])) (fun t => (t.output, t.fault, t.pc)) =
    some ([], some ⟨.writeError, 0, some 19⟩, 2) := by decide
theorem test_in_VI2 : after (step (resetWith [20, 32768] [.byte 13, .byte 10, .byte 65] [])) (fun t => (getReg 0 t, t.inAnswers)) =
    some (13, [.byte 65]) := by decide
theorem test_in_VI7 : after (step (resetWith [20, 5, 0] [.byte 65, .byte 66] [])) (fun t => (t.fault, t.inAnswers, t.mem.readCell 5)) =
    some (some ⟨.invalidRegister, 0, some 20⟩, [.byte 66], 0) := by decide
theorem test_in_waits_VI10 : (match step (start [20, 32768, 0]) with | .fault r => some r | _ => none) =
    some .waitingForInput := by decide
theorem test_in_VI8 : after (step (resetWith [20, 5, 0] [.byte 13, .byte 10, .byte 66] [])) (fun t => (t.fault, t.inAnswers)) =
    some (some ⟨.invalidRegister, 0, some 20⟩, [.byte 66]) := by decide
theorem test_finite_depth_refuses_R76 : pushWithin (some 2) 7 (withStk [1, 2] State.reset) = none := by decide

/-! ### Witnesses: for each statement with hypotheses a state, or operands, that meet all of them, at the boundaries of
each clause. The name ends in the statement's. -/

theorem witness_DecodeInvertsEncode : (Instr.gt (.lit 32767) (.reg 7) (.high 32776)).wf = true ∧
    (Instr.gt (.lit 0) (.reg 0) (.high 65535)).wf = true := by decide
theorem witness_EncodeInvertsDecode : decode [16, 32767, 32768, 5] = .instr (.wmem (.lit 32767) (.reg 0)) [5] := by decide
theorem witness_DecoderRejectsExactlyWordsAbove21 : decode [21] = .instr .noop [] ∧ decode [22] = .rejected (.illegalOpcode 22) := by
  decide
theorem witness_StepRunsDecodedInstruction :
    (high 32764 [9, 32768, 1, 2]).run = .running ∧
      decode (codeWords (high 32764 [9, 32768, 1, 2])) = .instr (.add (.reg 0) (.lit 1) (.lit 2)) [] := by decide
theorem witness_CutOffInstructionRaisesInvalidMemory :
    decode (codeWords (high 32765 [9, 32768, 1])) = .rejected .truncated ∧ (high 32765 [9, 32768, 1]).run = .running ∧
      decode (codeWords (high 32768 [])) = .rejected .truncated ∧ (high 32768 []).run = .running := by decide
theorem witness_IllegalOpcodeRaisesInvalidOpCode :
    (start [22]).run = .running ∧ opcodeAt (start [22]) = some 22 ∧ opcodeAt (high 32767 [65535]) = some 65535 := by decide
theorem witness_StoppedCoreHasNoStep : (halted State.reset).run = .halted ∧ (faultEntry .stackEmpty State.reset).run = .faulted := by
  decide
theorem witness_EveryRunningStateHasASuccessor : (start [20, 5]).run = .running ∧ AwaitsInput (start [20, 5]) ∧
    AwaitsInput (resetWith [20, 32768] [.byte 13] []) ∧ ¬ AwaitsInput (resetWith [20, 5] [.byte 13, .failed] []) :=
  ⟨rfl, ⟨.lit 5, [0, 0], by decide, .inl rfl⟩, ⟨.reg 0, [0, 0], by decide, .inr rfl⟩, fun ⟨_, _, _, h⟩ => h.elim (by decide) (by decide)⟩
theorem witness_OnlyOpcodeZeroHalts : (∃ t, step (start [0]) = .next t ∧ t.run = .halted) ∧
    ∃ t, step (start [21]) = .next t ∧ t.run = .running := ⟨⟨_, rfl, by decide⟩, ⟨_, rfl, by decide⟩⟩
theorem witness_FaultRecordNamesTheInstruction : (∃ t, step (start [18]) = .next t ∧ t.run = .faulted) ∧
    ∃ t, step (start [1, 32768, 5]) = .next t ∧ t.run ≠ .faulted := ⟨⟨_, rfl, by decide⟩, ⟨_, rfl, by decide⟩⟩
theorem witness_FaultingStepKeepsRegistersAndMemory :
    ∃ t, step (start [17, 40000]) = .next t ∧ t.run = .faulted ∧ (start [17, 40000]).run = .running := ⟨_, rfl, by decide⟩
theorem witness_OnlyStoringOpcodesWriteMemory :
    (∃ t, step (start [16, 10, 77]) = .next t ∧ t.mem ≠ (start [16, 10, 77]).mem) ∧
    decode (codeWords (start [16, 10, 77])) = .instr (.wmem (.lit 10) (.lit 77)) [0] ∧
    storeAddress (.wmem (.lit 10) (.lit 77)) (start [16, 10, 77]) = some 10 ∧ storeAddress (.pop (.lit 32767)) State.reset = some 32767 ∧
    storeAddress (.wmem (.high 32776) (.lit 77)) State.reset = none ∧
    (∃ t, step (start [22]) = .next t) ∧ decode (codeWords (start [22])) = .rejected (.illegalOpcode 22) :=
  ⟨⟨_, rfl, by decide⟩, by decide, by decide, by decide, by decide, ⟨_, rfl⟩, by decide⟩
theorem witness_OnlyRegisterWritersChangeARegister :
    (∃ t, step (start [1, 32775, 5]) = .next t ∧ t.regs ≠ (start [1, 32775, 5]).regs) ∧
    decode (codeWords (start [1, 32775, 5])) = .instr (.set (.reg 7) (.lit 5)) [0] ∧
    destination (.set (.reg 7) (.lit 5)) = some (.reg 7) ∧ destination (.set (.reg 7) (.lit 5)) ≠ some (.reg 6) ∧
    (∃ t, step (start [22]) = .next t) ∧ decode (codeWords (start [22])) = .rejected (.illegalOpcode 22) :=
  ⟨⟨_, rfl, by decide⟩, by decide, by decide, by decide, ⟨_, rfl⟩, by decide⟩
theorem witness_OnlyStackOpcodesMoveTheStack : (∃ t, step (start [2, 7]) = .next t ∧ t.stk = [7]) ∧
    ∃ t, step (withStk [1] (start [18])) = .next t ∧ t.stk = [] := ⟨⟨_, rfl, by decide⟩, ⟨_, rfl, by decide⟩⟩
theorem witness_OnlyOutAndInReachTheBoundary : (∃ t, step (start [19, 65]) = .next t ∧ t.output = [65]) ∧
    ∃ t, step (resetWith [20, 32768] [.byte 13, .byte 10] []) = .next t ∧ t.inAnswers = [] :=
  ⟨⟨_, rfl, by decide⟩, ⟨_, rfl, by decide⟩⟩
theorem witness_PcAdvancesPastItsWords :
    decode (codeWords (start [8, 5, 4])) = .instr (.jf (.lit 5) (.lit 4)) [0] ∧ ∃ t, step (start [8, 5, 4]) = .next t ∧ t.pc = 3 ∧
      transfersControl (.jf (.lit 5) (.lit 4)) (start [8, 5, 4]) = false :=
  ⟨by decide, _, rfl, by decide⟩
theorem witness_StepKeepsTheCoreInvariant : (start [18]).Inv ∧ ∃ t, step (start [18]) = .next t ∧ t.run = .faulted :=
  ⟨by decide, _, rfl, by decide⟩
theorem witness_ResetCopiesTheImage : (32767 < 32768) ∧ (start [7]).mem.readCell 0 = 7 ∧ (start [7]).mem.readCell 32767 = 0 := by
  decide
theorem witness_LoadAndStoreRoundTripInRange : (start [5]).mem.wf = true ∧ load 32768 (start [5]) = none ∧
    load 32767 (start [5]) = some 0 ∧ after (store 32767 65535 (start [5])) (load 32767) = some (some 65535) := by decide
theorem witness_ResolveIsRegisterOrWordItself : resolve (.ofWord 32767) (setReg 7 9 State.reset) = 32767 ∧
    resolve (.ofWord 32768) (setReg 7 9 State.reset) = 0 ∧ resolve (.ofWord 32775) (setReg 7 9 State.reset) = 9 ∧
    resolve (.ofWord 32776) (setReg 7 9 State.reset) = 32776 := by decide
theorem witness_RegSetWritesOnlyTheRegisterBand : after (regSet (.ofWord 32767) 9 State.reset) (fun t => t.run) = some .faulted ∧
    after (regSet (.ofWord 32768) 9 State.reset) (getReg 0) = some 9 ∧
    after (regSet (.ofWord 32775) 9 State.reset) (getReg 7) = some 9 ∧
    after (regSet (.ofWord 32776) 9 State.reset) (fun t => t.run) = some .faulted := by decide
theorem witness_WriteThroughFollowsTheThreeBands : State.reset.mem.wf = true ∧
    after (writeThrough (.ofWord 32767) 9 State.reset) (fun t => t.mem.readCell 32767) = some 9 ∧
    after (writeThrough (.ofWord 32768) 9 State.reset) (getReg 0) = some 9 ∧
    after (writeThrough (.ofWord 32776) 9 State.reset) (fun t => t.run) = some .faulted := by decide
theorem witness_PopUndoesPushAndEmptyStackFaults : (pushStk 5 State.reset).isSome = true ∧ State.reset.stk = [] := by decide
theorem witness_HaltEndsTheRun : (high 32767 [0]).run = .running ∧ opcodeAt (high 32767 [0]) = some 0 := by decide
theorem witness_NoopOnlyAdvancesPc : (high 32767 [21]).run = .running ∧ opcodeAt (high 32767 [21]) = some 21 := by decide
theorem witness_PopMovesTheTopToItsDestination : (withStk [5] State.reset).stk = 5 :: [] ∧ (32767 : Word).toNat ≤ 32767 ∧
    (withStk [5] State.reset).mem.wf = true ∧ 32776 ≤ (32776 : Word).toNat := by decide
theorem witness_EqWritesOneExactlyOnEqualWords : State.reset.mem.wf = true ∧
    (1 : Word) = (if resolve (.lit 4) State.reset = resolve (.lit 4) State.reset then 1 else 0) ∧
    (0 : Word) = (if resolve (.high 40000) State.reset = resolve (.lit 7232) State.reset then 1 else 0) := by decide
theorem witness_GtComparesUnsigned : State.reset.mem.wf = true ∧
    (1 : Word) = (if (resolve (.lit 32767) State.reset).toNat < (resolve (.high 32776) State.reset).toNat then 1 else 0) ∧
    (0 : Word) = (if (resolve (.lit 5) State.reset).toNat < (resolve (.lit 5) State.reset).toNat then 1 else 0) := by decide
theorem witness_JmpGoesToTheResolvedTarget : (resolve (.lit 32767) State.reset).toNat ≤ 32767 ∧
    32767 < (resolve (.reg 0) (setReg 0 32768 State.reset)).toNat := by decide
theorem witness_JtJumpsExactlyOnNonzero : resolve (.reg 0) State.reset = 0 ∧ resolve (.lit 1) State.reset ≠ 0 ∧
    (Operand.lit 32767).toWord.toNat ≤ 32767 ∧ 32767 < (Operand.reg 0).toWord.toNat := by decide
theorem witness_JfJumpsExactlyOnZero : resolve (.reg 0) (setReg 0 32768 State.reset) ≠ 0 ∧ resolve (.lit 0) State.reset = 0 ∧
    (Operand.lit 32767).toWord.toNat ≤ 32767 ∧ 32767 < (Operand.high 32776).toWord.toNat := by decide
theorem witness_CallPushesTheReturnAddress : (resolve (.lit 32767) State.reset).toNat ≤ 32767 ∧
    32767 < (resolve (.high 40000) State.reset).toNat := by decide
theorem witness_RetGoesToThePoppedWord : (withStk [32767] State.reset).stk = 32767 :: [] ∧ (32767 : Word).toNat ≤ 32767 ∧
    (withStk [32768] State.reset).stk = 32768 :: [] ∧ 32767 < (32768 : Word).toNat := by decide
theorem witness_RetUndoesCall : ∃ t, exec (.call (.lit 32767)) { State.reset with pc := 32767 } = .next t ∧
    (resolve (.lit 32767) { State.reset with pc := 32767 }).toNat ≤ 32767 ∧ ({ State.reset with pc := 32767 } : State).pc.toNat ≤ 32767 ∧
    t.stk = [32767] := ⟨_, rfl, by decide⟩
theorem witness_ModWritesTheUnsignedRemainder : resolve (.lit 1) State.reset ≠ 0 ∧ resolve (.high 65535) State.reset ≠ 0 := by decide
theorem witness_ModByZeroFaultsBeforeTheDestination : resolve (.reg 3) State.reset = 0 := by decide
theorem witness_NineInstructionsNeedARegister : (∀ i : Fin 8, Operand.lit 5 ≠ .reg i) ∧ resolve (.lit 3) State.reset ≠ 0 ∧
    (resolve (.lit 32767) State.reset).toNat ≤ 32767 ∧ (resetWith [] [.byte 65] []).inAnswers = .byte 65 :: [] ∧ (65 : Byte) ≠ 13 ∧
    (resetWith [] [.byte 13, .byte 13] []).inAnswers = .byte 13 :: .byte 13 :: [] := by decide
theorem witness_RmemLoadsTheWholeCell : (resolve (.lit 32767) State.reset).toNat ≤ 32767 ∧
    32767 < (resolve (.reg 1) (setReg 1 32768 State.reset)).toNat := by decide
theorem witness_WmemStoresAtTheResolvedAddress : State.reset.mem.wf = true ∧ (resolve (.lit 32767) State.reset).toNat ≤ 32767 ∧
    32767 < (resolve (.high 32776) State.reset).toNat := by decide
theorem witness_StoreIsSeenByTheNextFetch : ∃ t, exec (.wmem (.lit 3) (.lit 21)) { State.reset with pc := 3 } = .next t ∧
    (resolve (.lit 3) { State.reset with pc := 3 }).toNat ≤ 32767 ∧ ({ State.reset with pc := 3 } : State).mem.wf = true ∧
    t.pc = resolve (.lit 3) { State.reset with pc := 3 } ∧ writeThroughAddress (.lit 32767) = some 32767 ∧
    (withStk [5] State.reset).stk = 5 :: [] ∧ (withStk [5] State.reset).mem.wf = true := ⟨_, rfl, by decide⟩
theorem witness_OutAppendsTheLowByte : State.reset.outAnswers.head? ≠ some .failed ∧
    (resetWith [] [] [.accepted]).outAnswers.head? ≠ some .failed ∧ (resetWith [] [] [.failed]).outAnswers = .failed :: [] := by decide
theorem witness_InWritesTheByteZeroExtended : (resetWith [] [.byte 255] []).inAnswers = .byte 255 :: [] ∧ (255 : Byte) ≠ 13 := by decide
theorem witness_InDropsTheByteAfterCarriageReturn : (resetWith [] [.byte 13, .byte 13] []).inAnswers = .byte 13 :: .byte 13 :: [] := by
  decide
theorem witness_InRaisesReadErrorOnFailedAnswers : (resetWith [] [.failed] []).inAnswers = .failed :: [] ∧
    (resetWith [] [.byte 13, .failed] []).inAnswers = .byte 13 :: .failed :: [] := by decide
theorem witness_InWaitsForAnAnswer : (start [20, 32768]).inAnswers = [] ∧
    (resetWith [20, 32768] [.byte 13] []).inAnswers = [.byte 13] := by decide
theorem witness_RegisterWritersFrame : ∃ t, exec (.rmem (.reg 0) (.lit 3)) (start [15]) = .next t ∧ t.run = .running := ⟨_, rfl, by decide⟩
theorem witness_ComparisonsFrame : ∃ t, exec (.gt (.lit 200) (.lit 1) (.lit 0)) State.reset = .next t ∧ t.mem ≠ [] := ⟨_, rfl, by decide⟩
theorem witness_PushPopWmemFrame : (∃ t, exec (.push (.lit 7)) State.reset = .next t ∧ t.stk = [7]) ∧
    (∃ t, exec (.pop (.lit 100)) (withStk [5] State.reset) = .next t ∧ t.stk = []) ∧
    ∃ t, exec (.wmem (.lit 10) (.lit 77)) State.reset = .next t ∧ t.mem = [(20, 77)] :=
  ⟨⟨_, rfl, by decide⟩, ⟨_, rfl, by decide⟩, ⟨_, rfl, by decide⟩⟩
theorem witness_ControlTransferFrame : (∃ t, exec (.jt (.lit 1) (.lit 4)) State.reset = .next t ∧ t.pc = 4) ∧
    (∃ t, exec (.call (.lit 4)) State.reset = .next t ∧ t.stk = [0]) ∧
    ∃ t, exec .ret (withStk [5] State.reset) = .next t ∧ t.pc = 5 := ⟨⟨_, rfl, by decide⟩, ⟨_, rfl, by decide⟩, ⟨_, rfl, by decide⟩⟩
theorem witness_OutInFrame : (∃ t, exec (.out (.lit 321)) State.reset = .next t ∧ t.output = [65]) ∧
    ∃ t, exec (.inp (.reg 0)) (resetWith [] [.byte 65] []) = .next t ∧ getReg 0 t = 65 := ⟨⟨_, rfl, by decide⟩, ⟨_, rfl, by decide⟩⟩

end Sys2Proof.Tests
end

section
/-!
PROOFS. The state of the core (10_state.md): what the part of a step before execution leaves, what the end of an instruction
may touch field by field, and from these the invariant and the rules about registers, stack, pc, run state and record.
-/

namespace Sys2Proof.Machine

/-! ### The state an instruction is executed in -/

@[simp] theorem fetched_regs (n : Nat) (s : State) : (fetched n s).regs = s.regs := rfl
@[simp] theorem fetched_stk (n : Nat) (s : State) : (fetched n s).stk = s.stk := rfl
@[simp] theorem fetched_mem (n : Nat) (s : State) : (fetched n s).mem = s.mem := rfl
@[simp] theorem fetched_run (n : Nat) (s : State) : (fetched n s).run = s.run := rfl
@[simp] theorem fetched_fault (n : Nat) (s : State) : (fetched n s).fault = s.fault := rfl
@[simp] theorem fetched_ia (n : Nat) (s : State) : (fetched n s).ia = s.pc := rfl
@[simp] theorem fetched_opw (n : Nat) (s : State) : (fetched n s).opw = opcodeAt s := rfl
@[simp] theorem fetched_inAnswers (n : Nat) (s : State) : (fetched n s).inAnswers = s.inAnswers := rfl
@[simp] theorem fetched_outAnswers (n : Nat) (s : State) : (fetched n s).outAnswers = s.outAnswers := rfl
@[simp] theorem fetched_output (n : Nat) (s : State) : (fetched n s).output = s.output := rfl

/-- As long as the words end inside the memory, pc does not wrap (R13). -/
theorem fetched_pc_toNat {n : Nat} {s : State} (h : s.pc.toNat + n ≤ 32768) :
    (fetched n s).pc.toNat = s.pc.toNat + n := by
  simp only [fetched, BitVec.toNat_add, BitVec.toNat_ofNat]
  omega

/-- `u` is `s` with the latches loaded for the instruction at pc and pc moved inside 0..32768; nothing else has changed
(R82). -/
structure Latched (s u : State) : Prop where
  regs : u.regs = s.regs
  stk : u.stk = s.stk
  mem : u.mem = s.mem
  run : u.run = s.run
  fault : u.fault = s.fault
  ia : u.ia = s.pc
  opw : u.opw = opcodeAt s
  boundary : SameBoundary s u
  pc_le : s.pc.toNat ≤ 32768 → u.pc.toNat ≤ 32768

theorem latched_fetched {n : Nat} {s : State} (h : s.pc.toNat + n ≤ 32768) : Latched s (fetched n s) :=
  ⟨rfl, rfl, rfl, rfl, rfl, rfl, rfl, ⟨rfl, rfl, rfl⟩, fun _ => (fetched_pc_toNat h).trans_le h⟩

theorem latched_cutOff (s : State) : Latched s (withPC 32768 (fetched 1 s)) :=
  ⟨rfl, rfl, rfl, rfl, rfl, rfl, rfl, ⟨rfl, rfl, rfl⟩, fun _ => Nat.le_refl _⟩

theorem latched_beginStep {s : State} (h : opcodeAt s = none) : Latched s (beginStep s) :=
  ⟨rfl, rfl, rfl, rfl, rfl, rfl, h.symm, ⟨rfl, rfl, rfl⟩, id⟩

/-- A step either ends in a fault of the fetch or of the decoder, with nothing executed, or executes the decoded
instruction. -/
theorem step_faults_or_executes {s t : State} (e : step s = .next t) :
    (∃ k u r, decode (codeWords s) = .rejected r ∧ Latched s u ∧ raisableBy k (opcodeAt s) = true ∧ t = faultEntry k u) ∨
    (∃ i rest u, decode (codeWords s) = .instr i rest ∧ s.pc.toNat + (encode i).length ≤ 32768 ∧
      opcodeAt s = some (BitVec.ofNat 16 (opcode i)) ∧ Before i (fetched (encode i).length s) u ∧ Ending i u t) := by
  rcases step_effect e with ⟨_, hop, hdec, ht⟩ | ⟨w, hpc, hop, hw, hdec, ht⟩ | ⟨w, _, hop, hlo, hhi, hdec, ht⟩ |
    ⟨i, rest, u, hlen, hop, hdec, hb, he⟩
  · exact .inl ⟨_, _, _, hdec, latched_beginStep hop, by simp [hop, raisableBy], ht⟩
  · exact .inl ⟨_, _, _, hdec, latched_fetched (by omega), by simp [hop, raisableBy, hw], ht⟩
  · exact .inl ⟨_, _, _, hdec, latched_cutOff s, by simp [hop, raisableBy, hlo, hhi], ht⟩
  · exact .inr ⟨i, rest, u, hdec, hlen, hop, hb, he⟩

/-! ### What the end of an instruction may touch, field by field -/

section
variable {i : Instr} {u t : State}

theorem Ending.stk (h : Ending i u t) : t.stk = u.stk := by cases h <;> rfl
theorem Ending.ia (h : Ending i u t) : t.ia = u.ia := by cases h <;> rfl
theorem Ending.opw (h : Ending i u t) : t.opw = u.opw := by cases h <;> rfl

/-- Memory stays canonical: the only cell written is in bounds. -/
theorem Ending.mem_wf (h : Ending i u t) (hw : u.mem.wf = true) : t.mem.wf = true := by
  cases h with
  | cell a v ha _ => exact setCell_wf v ha hw
  | done | halt _ | fault _ _ | reg _ _ _ | jump _ _ _ | wrote _ _ _ => exact hw

/-- pc stays in 0..32768: the only targets jumped to are in bounds (R13). -/
theorem Ending.pc_le (h : Ending i u t) (hp : u.pc.toNat ≤ 32768) : t.pc.toNat ≤ 32768 := by
  cases h with
  | jump a ha _ =>
    simp only [withPC_pc]
    omega
  | done | halt _ | fault _ _ | reg _ _ _ | cell _ _ _ _ | wrote _ _ _ => exact hp

/-- pc is written by a control transfer alone (R14). -/
theorem Ending.pc (h : Ending i u t) (hc : transfersControl i u = false) : t.pc = u.pc := by
  cases h with
  | jump a _ hj => simp [hc] at hj
  | done | halt _ | fault _ _ | reg _ _ _ | cell _ _ _ _ | wrote _ _ _ => rfl

/-- A register is written as the destination alone (R12). -/
theorem Ending.getReg {j : Fin 8} (h : Ending i u t) (hd : destination i ≠ some (.reg j)) : getReg j t = getReg j u := by
  cases h with
  | reg k v hk =>
    refine getReg_setReg_ne v u fun hjk => hd ?_
    rw [hk, hjk]
  | done | halt _ | fault _ _ | cell _ _ _ _ | jump _ _ _ | wrote _ _ _ => rfl

/-- The run ends Halted by `halt` alone (R17). -/
theorem Ending.halt_of_halted (h : Ending i u t) (hu : u.run = .running) (ht : t.run = .halted) : i = .halt := by
  cases h with
  | halt hi => exact hi
  | fault k _ => simp at ht
  | done | reg _ _ _ | cell _ _ _ _ | jump _ _ _ | wrote _ _ _ => simp [hu] at ht

/-- An instruction of a running core raises a fault its opcode allows, or leaves the record alone and the core not
faulted. -/
theorem Ending.raises_or_keeps_record (h : Ending i u t) (hu : u.run = .running) :
    (∃ k, raisableBy k (some (BitVec.ofNat 16 (opcode i))) = true ∧ t = faultEntry k u) ∨
      (t.run ≠ .faulted ∧ t.fault = u.fault) := by
  cases h with
  | fault k hk => exact .inl ⟨k, hk, rfl⟩
  | halt _ => exact .inr ⟨by simp, rfl⟩
  | done | reg _ _ _ | cell _ _ _ _ | jump _ _ _ | wrote _ _ _ => exact .inr ⟨by simp [hu], rfl⟩

end

/-- Before its last statement an instruction moves the stack by one entry at most, and only under the stack opcodes. -/
theorem Before.stk_cases {i : Instr} {s u : State} (h : Before i s u) :
    u.stk = s.stk ∨ (opcode i ∈ [2, 17] ∧ ∃ v, u.stk = v :: s.stk) ∨ (opcode i ∈ [3, 18] ∧ ∃ v, s.stk = v :: u.stk) := by
  cases h with
  | pushed v hi => exact .inr (.inl ⟨hi, v, rfl⟩)
  | popped v rest hs hi => exact .inr (.inr ⟨hi, v, hs⟩)
  | nothing | readOne _ _ _ _ | readTwo _ _ _ _ _ | refused _ _ => exact .inl rfl

/-! ### Opcode words -/

theorem opcodeWord_toNat (i : Instr) : (BitVec.ofNat 16 (opcode i)).toNat = opcode i := by
  have := opcode_le i
  rw [BitVec.toNat_ofNat]
  omega

/-- Opcode word 0 is that of `halt` alone (R55). -/
theorem opcodeWord_eq_zero_iff {i : Instr} : BitVec.ofNat 16 (opcode i) = 0 ↔ i = .halt := by
  rw [← BitVec.toNat_inj, opcodeWord_toNat]
  cases i <;> simp [opcode]

/-! ### The fault record -/

/-- A step raises a fault, with the latches loaded for the instruction at pc, under a kind that its opcode word allows; or
it leaves the record alone and the core not faulted. -/
theorem step_raises_or_keeps_record {s t : State} (e : step s = .next t) :
    (∃ k u, u.ia = s.pc ∧ u.opw = opcodeAt s ∧ raisableBy k (opcodeAt s) = true ∧ t = faultEntry k u) ∨
      (t.run ≠ .faulted ∧ t.fault = s.fault) := by
  rcases step_faults_or_executes e with ⟨k, u, _, _, hl, hk, ht⟩ | ⟨i, _, u, _, _, hop, hb, he⟩
  · exact .inl ⟨k, u, hl.ia, hl.opw, hk, ht⟩
  · have hu : u.run = .running := by rw [hb.run, fetched_run, running_of_step e]
    rcases he.raises_or_keeps_record hu with ⟨k, hk, ht⟩ | ⟨hr, hf⟩
    · exact .inl ⟨k, u, hb.ia, hb.opw, hop ▸ hk, ht⟩
    · exact .inr ⟨hr, hf.trans hb.fault⟩

/-- The opcode word is absent at pc 32768 alone, for a pc that has not left 0..32768 (R18). -/
theorem opcodeAt_eq_none_iff {s : State} (h : s.pc.toNat ≤ 32768) : opcodeAt s = none ↔ s.pc.toNat = 32768 := by
  rw [opcodeAt, load_eq_none_iff]
  omega

/-! ### The invariant -/

/-- What every step leaves, however it ends: memory canonical, pc in range, the latches loaded for the instruction. -/
theorem step_keeps_range {s t : State} (hw : s.mem.wf = true) (hp : s.pc.toNat ≤ 32768) (e : step s = .next t) :
    t.mem.wf = true ∧ t.pc.toNat ≤ 32768 ∧ t.ia = s.pc := by
  rcases step_faults_or_executes e with ⟨k, u, _, _, hl, _, rfl⟩ | ⟨i, _, u, _, hlen, _, hb, he⟩
  · exact ⟨hl.mem ▸ hw, hl.pc_le hp, hl.ia⟩
  · have hpu : u.pc.toNat ≤ 32768 := hb.pc ▸ (latched_fetched hlen).pc_le hp
    exact ⟨he.mem_wf (hb.mem ▸ hw), he.pc_le hpu, he.ia.trans hb.ia⟩

/-- Fault entry under a kind the latched word allows writes a record that the invariant accepts. -/
theorem faultEntry_record_ok {k : FaultKind} {u : State} (hk : raisableBy k u.opw = true) (hia : u.ia.toNat ≤ 32768)
    (hop : u.opw = none ↔ u.ia.toNat = 32768) :
    ((faultEntry k u).fault.all fun r => r.ok && decide (r.addr = (faultEntry k u).ia) &&
      decide (r.opw = (faultEntry k u).opw)) = true := by
  simp [FaultRecord.ok, hk, hia, hop]

/-- Settles O18: memory, pc and latch by `step_keeps_range`; the record is one just raised, or it is absent as before. -/
theorem stepKeepsTheCoreInvariant : Obligations.StepKeepsTheCoreInvariant := by
  intro s t ⟨hw, hp, _, hrun, _⟩ e
  obtain ⟨hw', hp', hia'⟩ := step_keeps_range hw hp e
  refine ⟨hw', hp', hia' ▸ hp, ?_⟩
  rcases step_raises_or_keeps_record e with ⟨k, u, hia, hop, hk, rfl⟩ | ⟨hr, hf⟩
  · refine ⟨by simp, faultEntry_record_ok (hop ▸ hk) (hia ▸ hp) ?_⟩
    rw [hop, hia]
    exact opcodeAt_eq_none_iff hp
  · have hnone : t.fault = none := by
      rw [hf]
      simpa [running_of_step e] using hrun
    simp [hr, hnone]

/-- Settles O19: the only field of reset that asks for an argument is the memory, canonical by `resetWith_wf`. -/
theorem resetMeetsTheCoreInvariant : Obligations.ResetMeetsTheCoreInvariant := by
  refine ⟨by decide, fun image ins outs => ⟨resetWith_wf image ins outs, ?_⟩⟩
  simp [resetWith, State.reset]

/-- Settles O20: each value is that of the literal `State.reset`. -/
theorem resetLeavesTheStatedValues : Obligations.ResetLeavesTheStatedValues :=
  ⟨by decide, rfl, rfl, rfl, rfl, fun _ => by simp [State.reset, Memory.readCell, Memory.getByte], rfl, rfl⟩

/-! ### The rules about run state, record, registers, stack and pc -/

/-- A step at an opcode word 0 halts the core (R100). -/
theorem step_halts_of_opcodeAt_zero {s t : State} (e : step s = .next t) (h0 : opcodeAt s = some 0) : t.run = .halted := by
  rcases step_cases (running_of_step e) with ⟨_, hop, _⟩ | ⟨w, _, hop, hw, _⟩ | ⟨w, _, hop, hw, _⟩ | ⟨i, _, _, hop, _, hs⟩ <;>
    rw [hop] at h0
  · cases h0
  · cases h0
    simp at hw
  · cases h0
    simp at hw
  · obtain rfl := opcodeWord_eq_zero_iff.mp (Option.some.inj h0)
    rw [hs] at e
    cases e
    rfl

/-- Settles O10: a fault of fetch or decoder ends Faulted and never at word 0; of the instructions only `halt` halts. -/
theorem onlyOpcodeZeroHalts : Obligations.OnlyOpcodeZeroHalts := by
  intro s t hs e
  refine ⟨fun ht => ?_, step_halts_of_opcodeAt_zero e⟩
  rcases step_faults_or_executes e with ⟨k, u, _, _, _, _, rfl⟩ | ⟨i, _, u, _, _, hop, hb, he⟩
  · simp at ht
  · rw [hop, opcodeWord_eq_zero_iff.mpr (he.halt_of_halted (hb.run.trans hs) ht)]

/-- Settles O11: `step_raises_or_keeps_record`, read off the record that fault entry writes. -/
theorem faultRecordNamesTheInstruction : Obligations.FaultRecordNamesTheInstruction := by
  intro s t _ e
  rcases step_raises_or_keeps_record e with ⟨k, u, hia, hop, hk, rfl⟩ | ⟨hr, hf⟩
  · exact ⟨fun _ => ⟨k, by simp [hia, hop], hk⟩, fun h => absurd rfl h⟩
  · exact ⟨fun h => absurd h hr, fun _ => hf⟩

/-- Settles O14: a rejected word leaves the registers as they were, and `Ending.getReg` speaks of an instruction. -/
theorem onlyRegisterWritersChangeARegister : Obligations.OnlyRegisterWritersChangeARegister := by
  intro s t _ e
  rcases step_faults_or_executes e with ⟨k, u, r, hdec, hl, _, rfl⟩ | ⟨i, rest, u, hdec, _, _, hb, he⟩
  · exact ⟨fun _ _ => hl.regs, fun _ _ h => by simp [hdec] at h⟩
  · refine ⟨fun _ h => by simp [hdec] at h, fun i' rest' h j hj => ?_⟩
    rw [hdec] at h
    cases h
    rw [he.getReg hj]
    simp [getReg, hb.regs]

/-- Settles O15: no ending moves the stack, so `Before.stk_cases` says it all. -/
theorem onlyStackOpcodesMoveTheStack : Obligations.OnlyStackOpcodesMoveTheStack := by
  intro s t _ e
  rcases step_faults_or_executes e with ⟨k, u, _, _, hl, _, rfl⟩ | ⟨i, _, u, _, _, hop, hb, he⟩
  · exact .inl hl.stk
  · rw [he.stk]
    have hw := opcodeWord_toNat i
    rcases hb.stk_cases with h | ⟨hi, h⟩ | ⟨hi, h⟩
    · exact .inl h
    · exact .inr (.inl ⟨⟨_, hop, hw.symm ▸ hi⟩, h⟩)
    · exact .inr (.inr ⟨⟨_, hop, hw.symm ▸ hi⟩, h⟩)

/-- Settles O17: pc is where the fetch left it, since whether `i` jumps depends on the registers alone. -/
theorem pcAdvancesPastItsWords : Obligations.PcAdvancesPastItsWords := by
  intro s i rest t _ hdec e hc
  rcases step_faults_or_executes e with ⟨_, _, r, hrej, _⟩ | ⟨i', _, u, hdec', hlen, _, hb, he⟩
  · simp [hdec] at hrej
  · rw [hdec] at hdec'
    cases hdec'
    have hcu : transfersControl i u = false := (transfersControl_congr i hb.regs).trans hc
    rw [he.pc hcu, hb.pc, fetched_pc_toNat hlen]

/-! ### The wait of `in` -/

/-- An `in` that is answered has a next state, whatever its operand. -/
theorem exec_inp_answered (a : Operand) {s : State} (h : ¬ Unanswered s) : ∃ t, exec (.inp a) s = .next t := by
  obtain ⟨_, t, e, _⟩ := exec_effect (.inp a) s fun _ _ => h
  exact ⟨t, e⟩

/-- Two answers are all that one `in` can ask for. -/
theorem not_unanswered_of_two_le {s : State} (h : 2 ≤ s.inAnswers.length) : ¬ Unanswered s := by
  rintro (h' | h') <;> simp [h'] at h

/-- Settles O54: `in` waits exactly when unanswered, and with two further answers it is not. -/
theorem inWaitsForAnAnswer : Obligations.InWaitsForAnAnswer := by
  refine fun a s => ⟨⟨fun e => ?_, exec_inp_unanswered a⟩, fun x y => exec_inp_answered a (not_unanswered_of_two_le ?_)⟩
  · by_contra h
    obtain ⟨t, e'⟩ := exec_inp_answered a h
    simp [e] at e'
  · simp

end Sys2Proof.Machine
end

section
/-!
PROOFS. Memory and what reaches beyond the registers (20_memory.md): a load after a store and after reset, the very next
fetch after a store, the one cell and the one side of the boundary a step may touch, and the frame of the register writers.
-/

namespace Sys2Proof.Machine

/-! ### Load and store -/

/-- The cell stored to loads all 16 bits of what was stored (R32). -/
theorem load_setCell_same {a : Word} (v : Word) {s : State} (ha : a.toNat ≤ 32767) (h : s.mem.wf = true) :
    load a (setCell a v s) = some v := load_eq_some_iff.mpr ⟨ha, readCell_setCell_same v ha h⟩

/-- Every other address loads as before (R32). -/
theorem load_setCell_ne {a b : Word} (v : Word) (s : State) (h : b ≠ a) : load b (setCell a v s) = load b s := by
  have hn : b.toNat ≠ a.toNat := fun e => h (BitVec.eq_of_toNat_eq e)
  simp only [load, readCell_setCell_ne v s hn]

theorem store_in {a : Word} (v : Word) (s : State) (ha : a.toNat ≤ 32767) : store a v s = .next (setCell a v s) := by
  rcases store_cases a v s with ⟨_, e⟩ | ⟨h, _⟩
  · exact e
  · omega

theorem store_out {a : Word} (v : Word) (s : State) (ha : 32767 < a.toNat) :
    store a v s = .next (faultEntry .invalidMemory s) := by
  rcases store_cases a v s with ⟨h, _⟩ | ⟨_, e⟩
  · omega
  · exact e

/-- Settles O22: out of range by `store_out`, in range by what the cell write of `store_in` lets a load read. -/
theorem loadAndStoreRoundTripInRange : Obligations.LoadAndStoreRoundTripInRange := by
  refine fun a v s hw => ⟨fun ha => ?_, fun ha => ?_⟩
  · exact ⟨load_eq_none_iff.mpr ha, _, store_out v s ha, faultEntry_raised _ s⟩
  · exact ⟨load_eq_some_iff.mpr ⟨ha, rfl⟩, _, store_in v s ha, setCell_wroteCell v ha hw, load_setCell_same v ha hw,
      fun _ hb => load_setCell_ne v s hb⟩

/-! ### The image after reset -/

/-- Counted from the address it is laid out at, an image is read word by word, and as 0 past its end (R34, R35). -/
theorem readCell_ofImage : ∀ (ws : List Word) (a k : Nat), (Memory.ofImage a ws).readCell (a + k) = ws.getD k 0
  | [], _, _ => by simp [Memory.ofImage, Memory.readCell, Memory.getByte]
  | w :: ws, a, 0 => readCell_ofImage_head w ws a
  | w :: ws, a, k + 1 => by
    rw [readCell_ofImage_tail w ws (by omega), show a + (k + 1) = a + 1 + k by omega, readCell_ofImage ws (a + 1) k]
    rfl

/-- Settles O21: below 32768 the image and what reset keeps of it agree; every other field is reset's own. -/
theorem resetCopiesTheImage : Obligations.ResetCopiesTheImage := by
  refine fun image ins outs => ⟨fun a ha => ?_, rfl⟩
  have hread := readCell_ofImage (image.take Config.memCells) 0 a
  rw [Nat.zero_add] at hread
  rw [show (resetWith image ins outs).mem = Memory.ofImage 0 (image.take Config.memCells) from rfl, hread]
  simp [List.getD_eq_getElem?_getD, List.getElem?_take_of_lt ha]

/-! ### The next fetch after a store -/

/-- Nothing stands between the cells and the fetch (R43). -/
theorem setCell_nextFetchSees {a : Word} (v : Word) {s : State} (ha : a.toNat ≤ 32767) (h : s.mem.wf = true) :
    NextFetchSees a v s (setCell a v s) :=
  ⟨fun hpc => by rw [opcodeAt, setCell_pc, hpc, load_setCell_same v ha h], fun hpc => load_setCell_ne v s hpc⟩

/-- Where a write-through names a cell, it is a store to that cell. -/
theorem writeThrough_of_address {w : Operand} {a : Word} (v : Word) (s : State) (h : writeThroughAddress w = some a) :
    writeThrough w v s = .next (setCell a v s) := by
  obtain ⟨hreg, ha, rfl⟩ := writeThroughAddress_eq_some_iff.mp h
  rcases writeThrough_cases w v s with ⟨i, hi, _⟩ | ⟨_, _, e⟩ | ⟨_, hlt, _⟩
  · exact absurd hi (hreg i)
  · exact e
  · omega

theorem writeThrough_nextFetchSees {w : Operand} {a : Word} (v : Word) {s : State} (h : writeThroughAddress w = some a)
    (hw : s.mem.wf = true) : ∃ t, writeThrough w v s = .next t ∧ NextFetchSees a v s t := by
  obtain ⟨_, ha, _⟩ := writeThroughAddress_eq_some_iff.mp h
  exact ⟨_, writeThrough_of_address v s h, setCell_nextFetchSees v ha hw⟩

/-- `pop` with a top on the stack writes that top through, in the state without it (R112). -/
theorem exec_pop_cons (a : Operand) {v : Word} {rest : List Word} {s : State} (h : s.stk = v :: rest) :
    exec (.pop a) s = writeThrough a v (withStk rest s) := by
  simp only [exec, execPop, popStk_cons h]

theorem eqWord_eq_ite (b c : Word) : eqWord b c = if b = c then 1 else 0 := by
  simp [eqWord, truthWord, BitVec.toNat_inj]

theorem gtWord_eq_ite (b c : Word) : gtWord b c = if c.toNat < b.toNat then 1 else 0 := by
  simp [gtWord, truthWord]

/-- Settles O49: `wmem` is a store and the three others write through; the pop of the stack moves neither pc nor a cell. -/
theorem storeIsSeenByTheNextFetch : Obligations.StoreIsSeenByTheNextFetch := by
  refine fun a b c s hw => ⟨fun ha => ⟨_, store_in _ s ha, setCell_nextFetchSees _ ha hw⟩, fun w hwt => ⟨?_, ?_, ?_⟩⟩
  · intro v rest hs
    rw [exec_pop_cons a hs]
    exact writeThrough_nextFetchSees v (s := withStk rest s) hwt hw
  · rw [← eqWord_eq_ite]
    exact writeThrough_nextFetchSees _ hwt hw
  · rw [← gtWord_eq_ite]
    exact writeThrough_nextFetchSees _ hwt hw

/-! ### The cell an instruction may change -/

section
variable {i : Instr} {s u t : State}

/-- A cell is written at the store address alone (R45). -/
theorem Ending.sameMemoryBut (h : Ending i u t) : SameMemoryBut (storeAddress i u) u t := by
  intro b hb
  cases h with
  | cell a v _ ha =>
    refine readCell_setCell_ne v u fun hba => hb ?_
    rw [ha, hba]
    rfl
  | done | halt _ | fault _ _ | reg _ _ _ | jump _ _ _ | wrote _ _ _ => rfl

/-- No ending writes both a cell and a register. -/
theorem Ending.mem_or_regs (h : Ending i u t) : t.mem = u.mem ∨ t.regs = u.regs := by
  cases h with
  | cell _ _ _ _ => exact .inr rfl
  | done | halt _ | fault _ _ | reg _ _ _ | jump _ _ _ | wrote _ _ _ => exact .inl rfl

/-- What an instruction may do to memory, in terms of the state it starts from. -/
theorem sameMemoryBut_of_effect (hb : Before i s u) (he : Ending i u t) : SameMemoryBut (storeAddress i s) s t := by
  have h := he.sameMemoryBut
  rw [storeAddress_congr i hb.regs] at h
  exact fun c hc => (h c hc).trans (by rw [hb.mem])

end

/-- Settles O13: a rejected word leaves the memory as it was, and an instruction stores where `storeAddress` says. -/
theorem onlyStoringOpcodesWriteMemory : Obligations.OnlyStoringOpcodesWriteMemory := by
  intro s t _ e
  rcases step_faults_or_executes e with ⟨k, u, r, hdec, hl, _, rfl⟩ | ⟨i, rest, u, hdec, _, _, hb, he⟩
  · exact ⟨fun _ _ => hl.mem, fun _ _ h => by simp [hdec] at h, .inl hl.mem⟩
  · refine ⟨fun _ h => by simp [hdec] at h, fun i' rest' h => ?_, ?_⟩
    · rw [hdec] at h
      cases h
      have hbut := sameMemoryBut_of_effect hb he
      rwa [storeAddress_congr i (fetched_regs _ s)] at hbut
    · exact he.mem_or_regs.imp (·.trans hb.mem) (·.trans hb.regs)

/-! ### The boundary -/

section
variable {i : Instr} {s u t : State}

/-- The source is asked before an instruction ends, by `in` alone, for one answer or two (R22, R163). -/
theorem Before.inAnswers_cases (h : Before i s u) : u.inAnswers = s.inAnswers ∨
    (opcode i = 20 ∧ ((∃ x, s.inAnswers = x :: u.inAnswers) ∨ ∃ x y, s.inAnswers = x :: y :: u.inAnswers)) := by
  cases h with
  | readOne x rest hs hi => exact .inr ⟨hi, .inl ⟨x, hs⟩⟩
  | readTwo x y rest hs hi => exact .inr ⟨hi, .inr ⟨x, y, hs⟩⟩
  | nothing | pushed _ _ | popped _ _ _ _ | refused _ _ => exact .inl rfl

/-- Only `out` hears a refusal of the sink (R21). -/
theorem Before.outAnswers (h : Before i s u) (hi : opcode i ≠ 19) : u.outAnswers = s.outAnswers := by
  cases h with
  | refused _ ho => exact absurd ho hi
  | nothing | pushed _ _ | popped _ _ _ _ | readOne _ _ _ _ | readTwo _ _ _ _ _ => rfl

theorem Ending.inAnswers (h : Ending i u t) : t.inAnswers = u.inAnswers := by cases h <;> rfl

/-- The trace grows by one byte or not at all (R21). -/
theorem Ending.output_cases (h : Ending i u t) : t.output = u.output ∨ ∃ b, t.output = u.output ++ [b] := by
  cases h with
  | wrote b _ _ => exact .inr ⟨b, rfl⟩
  | done | halt _ | fault _ _ | reg _ _ _ | cell _ _ _ _ | jump _ _ _ => exact .inl rfl

/-- Only `out` presents a byte to the sink (R21). -/
theorem Ending.sameBoundary (h : Ending i u t) (hi : opcode i ≠ 19) : SameBoundary u t := by
  cases h with
  | wrote _ _ ho => exact absurd ho hi
  | done | halt _ | fault _ _ | reg _ _ _ | cell _ _ _ _ | jump _ _ _ => exact ⟨rfl, rfl, rfl⟩

end

/-- Settles O16: `out` alone reaches the sink and never the source; every other instruction leaves the sink as it was and
asks the source only as `in`. -/
theorem onlyOutAndInReachTheBoundary : Obligations.OnlyOutAndInReachTheBoundary := by
  intro s t _ e
  rcases step_faults_or_executes e with ⟨k, u, _, _, hl, _, rfl⟩ | ⟨i, _, u, _, _, hop, hb, he⟩
  · exact .inl hl.boundary
  by_cases h19 : opcode i = 19
  · have hin : u.inAnswers = s.inAnswers := hb.inAnswers_cases.resolve_right fun h => by omega
    have hout := he.output_cases
    rw [hb.output] at hout
    exact .inr (.inl ⟨by rw [hop, h19]; rfl, he.inAnswers.trans hin, hout⟩)
  · obtain ⟨hin, houts, hout⟩ := he.sameBoundary h19
    have houts' : t.outAnswers = s.outAnswers := houts.trans (hb.outAnswers h19)
    have hout' : t.output = s.output := hout.trans hb.output
    rcases hb.inAnswers_cases with h | ⟨h20, h⟩
    · exact .inl ⟨hin.trans h, houts', hout'⟩
    · rw [← hin] at h
      exact .inr (.inr ⟨by rw [hop, h20]; rfl, houts', hout', h⟩)

/-! ### The frame of the register writers -/

section
variable {i : Instr} {s u t : State}

/-- An instruction of no stack and no I/O opcode has only its last statement. -/
theorem Before.eq_self (h : Before i s u) (hi : opcode i ∉ [2, 3, 17, 18, 19, 20]) : u = s := by
  cases h with
  | nothing => rfl
  | pushed _ ho | popped _ _ _ ho | readOne _ _ _ ho | readTwo _ _ _ _ ho | refused _ ho => simp_all

/-- Of the registers, at most the one the destination operand names is written (R12). -/
theorem Ending.sameRegsBut {d : Operand} (h : Ending i u t) (hd : destination i = some d) : SameRegsBut d u t :=
  fun j hj => h.getReg (by simpa [hd] using hj)

/-- Any instruction but `halt` leaves run state and record alone or raises a fault (R206). -/
theorem Ending.sameRunOrRaised (h : Ending i u t) (hi : i ≠ .halt) : SameRunOrRaised u t := by
  cases h with
  | halt hh => exact absurd hh hi
  | fault k _ => exact .inr ⟨rfl, k, rfl⟩
  | done | reg _ _ _ | cell _ _ _ _ | jump _ _ _ | wrote _ _ _ => exact .inl ⟨rfl, rfl⟩

/-- The frame of an instruction with a destination that stores to no cell, does not jump and is of no stack and no I/O
opcode. -/
theorem frame_of_register_writer {d : Operand} (hi : opcode i ∉ [2, 3, 17, 18, 19, 20]) (hd : destination i = some d)
    (hs : storeAddress i s = none) (hc : transfersControl i s = false) (e : exec i s = .next t) :
    SameRegsBut d s t ∧ t.pc = s.pc ∧ t.stk = s.stk ∧ SameMemory s t ∧ SameLatches s t ∧ SameBoundary s t ∧
      SameRunOrRaised s t := by
  obtain ⟨u, hb, he⟩ := effect_of_exec e
  obtain rfl := hb.eq_self hi
  have hhalt : i ≠ .halt := by
    rintro rfl
    cases hd
  refine ⟨he.sameRegsBut hd, he.pc hc, he.stk, fun a => he.sameMemoryBut a ?_, ⟨he.ia, he.opw⟩, he.sameBoundary ?_,
    he.sameRunOrRaised hhalt⟩
  · simp [hs]
  · rintro h19
    simp [h19] at hi

end

/-- Settles O55: each of the eight is a register writer as `frame_of_register_writer` asks. -/
theorem registerWritersFrame : Obligations.RegisterWritersFrame := by
  rintro a b c s t (e | e | e | e | e | e | e | e)
  all_goals exact frame_of_register_writer (by simp [opcode]) rfl rfl rfl e

end Sys2Proof.Machine
end

section
/-!
PROOFS. The encoding (30_encoding.md): the opcode map read from the word to the instruction, the one equivalence that says
what the decoder accepts, the opcode words it rejects, and the step that meets one of those.
-/

namespace Sys2Proof
open Laws

/-! ### The opcode map, from the instruction and from the word -/

/-- `Rebuild.Statement` holds of every instruction: one row of the map of R55 for each constructor. -/
theorem rebuild_statement : ∀ i : Instr, Rebuild.Statement i
  | .halt => Rebuild.halt
  | .set a b => Rebuild.set a b
  | .push a => Rebuild.push a
  | .pop a => Rebuild.pop a
  | .eq a b c => Rebuild.eq a b c
  | .gt a b c => Rebuild.gt a b c
  | .jmp a => Rebuild.jmp a
  | .jt a b => Rebuild.jt a b
  | .jf a b => Rebuild.jf a b
  | .add a b c => Rebuild.add a b c
  | .mult a b c => Rebuild.mult a b c
  | .mod a b c => Rebuild.mod a b c
  | .and a b c => Rebuild.and a b c
  | .or a b c => Rebuild.or a b c
  | .not a b => Rebuild.not a b
  | .rmem a b => Rebuild.rmem a b
  | .wmem a b => Rebuild.wmem a b
  | .call a => Rebuild.call a
  | .ret => Rebuild.ret
  | .out a => Rebuild.out a
  | .inp a => Rebuild.inp a
  | .noop => Rebuild.noop

/-- The map of R55 read from the word: the 22 rows, each among those of its own format, make instructions of their own
opcode and of the operands given. -/
theorem opcode_operands_of_rebuild {w : Word} {f : Format} {os : List Operand} {i : Instr} (hf : formatOf w = some f)
    (h : rebuild f os = some i) : BitVec.ofNat 16 (opcode i) = w ∧ i.operands = os := by
  have row : ∀ {n : Nat}, w.toNat = n → BitVec.ofNat 16 n = w := by
    rintro n rfl
    simp
  unfold rebuild at h
  unfold formatOf at hf
  split at h <;> cases h
  all_goals split at hf <;> cases hf <;> exact ⟨row ‹_›, rfl⟩

/-! ### What the decoder accepts -/

/-- A format is filled exactly by the words of well-formed operands it rebuilds the instruction from (R53, R57). -/
theorem fillFormat_eq_instr_iff {f : Format} {ws rest : List Word} {i : Instr} : fillFormat f ws = .instr i rest ↔
    ∃ os : List Operand, os.all Operand.wf = true ∧ ws = os.map Operand.toWord ++ rest ∧ rebuild f os = some i := by
  constructor
  · intro h
    unfold fillFormat at h
    split at h <;> cases h
    · exact ⟨[], rfl, rfl, rfl⟩
    · exact ⟨[.ofWord _], by simp [ofWord_wf], by simp [toWord_ofWord], rfl⟩
    · exact ⟨[.ofWord _, .ofWord _], by simp [ofWord_wf], by simp [toWord_ofWord], rfl⟩
    · exact ⟨[.ofWord _, .ofWord _, .ofWord _], by simp [ofWord_wf], by simp [toWord_ofWord], rfl⟩
  · rintro ⟨os, hwf, rfl, h⟩
    have hback : ∀ o ∈ os, Operand.ofWord o.toWord = o := fun o ho => ofWord_toWord (List.all_eq_true.mp hwf o ho)
    unfold rebuild at h
    split at h <;> cases h
    all_goals simp [fillFormat, hback]

/-- The decoder makes an instruction of an opcode word exactly when the map has a row for it that the words fill. -/
theorem decode_cons_eq_instr_iff {w : Word} {ws rest : List Word} {i : Instr} : decode (w :: ws) = .instr i rest ↔
    ∃ f, formatOf w = some f ∧ fillFormat f ws = .instr i rest := by
  rw [decode_cons]
  cases formatOf w <;> simp

/-- Decoder and encoder are inverse to each other: the decoder accepts the words of the well-formed instructions, with
anything after them, and nothing else. -/
theorem decode_eq_instr_iff {ws rest : List Word} {i : Instr} :
    decode ws = .instr i rest ↔ i.wf = true ∧ ws = encode i ++ rest := by
  constructor
  · intro h
    cases ws with
    | nil => cases h
    | cons w ws =>
      obtain ⟨f, hf, hfill⟩ := decode_cons_eq_instr_iff.mp h
      obtain ⟨os, hwf, rfl, hr⟩ := fillFormat_eq_instr_iff.mp hfill
      obtain ⟨rfl, rfl⟩ := opcode_operands_of_rebuild hf hr
      exact ⟨hwf, rfl⟩
  · rintro ⟨hwf, rfl⟩
    obtain ⟨_, f, hf, hr⟩ := rebuild_statement i
    exact decode_cons_eq_instr_iff.mpr ⟨f, hf, fillFormat_eq_instr_iff.mpr ⟨i.operands, hwf, rfl, hr⟩⟩

/-- Settles O1: `decode_eq_instr_iff` from right to left. -/
theorem decodeInvertsEncode : Obligations.DecodeInvertsEncode :=
  fun _ _ hwf => decode_eq_instr_iff.mpr ⟨hwf, rfl⟩

/-- Settles O2: `decode_eq_instr_iff` from left to right. -/
theorem encodeInvertsDecode : Obligations.EncodeInvertsDecode :=
  fun _ _ _ h => decode_eq_instr_iff.mp h

/-! ### What the decoder rejects -/

/-- Settles O3: above 21 the map has no row, and a row that is there ends in an instruction or for want of words. -/
theorem decoderRejectsExactlyWordsAbove21 : Obligations.DecoderRejectsExactlyWordsAbove21 := by
  refine fun w ws => ⟨fun h => ?_, fun h => by rw [decode_cons, formatOf_illegal h]⟩
  by_contra hlt
  obtain ⟨f, hf⟩ := formatOf_legal (w := w) (by omega)
  simp only [decode_cons, hf] at h
  rcases Machine.fillFormat_cases hf ws with ⟨_, _, e, _⟩ | ⟨e, _⟩
  all_goals simp [e] at h

/-- Settles O4: the model's decoder, run on each list of words. -/
theorem writtenOutWordsDecode : Obligations.WrittenOutWordsDecode := by
  unfold Obligations.WrittenOutWordsDecode
  decide

end Sys2Proof

namespace Sys2Proof.Machine

/-- Of the four cases of a step the opcode word leaves one when it is above 21 (R56). -/
theorem step_of_illegal_opcode {s : State} {w : Word} (hs : s.run = .running) (hop : opcodeAt s = some w)
    (hw : 22 ≤ w.toNat) : s.pc.toNat ≤ 32767 ∧ step s = .next (faultEntry .invalidOpCode (fetched 1 s)) := by
  rcases step_cases hs with ⟨_, hop', _⟩ | ⟨_, hpc, _, _, _, e⟩ | ⟨v, _, hop', _, hv, _⟩ | ⟨i, _, _, hop', _⟩
  · simp [hop] at hop'
  · exact ⟨hpc, e⟩
  · obtain rfl : w = v := Option.some.inj (hop.symm.trans hop')
    omega
  · obtain rfl := Option.some.inj (hop.symm.trans hop')
    have hle := opcode_le i
    rw [opcodeWord_toNat] at hw
    omega

/-- Settles O7: the step is a fault entry with one word fetched, and neither touches another field. -/
theorem illegalOpcodeRaisesInvalidOpCode : Obligations.IllegalOpcodeRaisesInvalidOpCode := by
  intro s w hs hop hw
  obtain ⟨hpc, e⟩ := step_of_illegal_opcode hs hop hw
  exact ⟨_, e, rfl, rfl, fetched_pc_toNat (by omega), rfl, rfl, rfl, rfl, rfl, rfl⟩

end Sys2Proof.Machine
end

section
/-!
PROOFS. The execution core (40_execution_core.md): what a step comes to in each run state and for each answer of the decoder,
and the primitives `Resolve`, `RegSet`, `WriteThrough`, `Push` and `Pop`, with the instructions that fault in them.
-/

namespace Sys2Proof.Machine

/-! ### The step -/

/-- Settles O8: the dispatch on the run state comes before any fetch. -/
theorem stoppedCoreHasNoStep : Obligations.StoppedCoreHasNoStep :=
  fun _ => ⟨fun h => by simp only [step, nextInstr, h], fun h => by simp only [step, nextInstr, h]⟩

/-- Settles O5: of the four cases of a step only the last has words that decode to an instruction. -/
theorem stepRunsDecodedInstruction : Obligations.StepRunsDecodedInstruction := by
  intro s i rest hs hdec
  rcases step_cases hs with ⟨_, _, hrej, _⟩ | ⟨_, _, _, _, hrej, _⟩ | ⟨_, _, _, _, _, hrej, _⟩ | ⟨j, _, _, _, hdec', e⟩
  · simp [hdec] at hrej
  · simp [hdec] at hrej
  · simp [hdec] at hrej
  · rw [hdec] at hdec'
    cases hdec'
    exact e

/-- A step whose words are cut off raises InvalidMemory with the latches loaded: at once when pc names no cell, else with pc
at 32768 (R70). -/
theorem step_of_truncated {s : State} (hs : s.run = .running) (hdec : decode (codeWords s) = .rejected .truncated) :
    ∃ u, Latched s u ∧ u.pc = (if s.pc.toNat ≤ 32767 then 32768 else s.pc) ∧
      step s = .next (faultEntry .invalidMemory u) := by
  rcases step_cases hs with ⟨hpc, hop, _, e⟩ | ⟨_, _, _, _, hdec', _⟩ | ⟨_, hpc, _, _, _, _, e⟩ | ⟨_, _, _, _, hdec', _⟩
  · exact ⟨_, latched_beginStep hop, (if_neg (by omega)).symm, e⟩
  · simp [hdec] at hdec'
  · exact ⟨_, latched_cutOff s, (if_pos hpc).symm, e⟩
  · simp [hdec] at hdec'

/-- Settles O6: the record and the frame are those of the `Latched` state that `step_of_truncated` raises the fault in. -/
theorem cutOffInstructionRaisesInvalidMemory : Obligations.CutOffInstructionRaisesInvalidMemory := by
  intro s hs hdec
  obtain ⟨u, hl, hpc, e⟩ := step_of_truncated hs hdec
  exact ⟨_, e, rfl, by simp [hl.ia, hl.opw], hpc, hl.regs, hl.stk, hl.mem, hl.boundary⟩

/-- Settles O9: a waiting `in` is executed and waits; a fault of fetch or decoder is a next state, and an instruction that is
no waiting `in` has its effect. -/
theorem everyRunningStateHasASuccessor : Obligations.EveryRunningStateHasASuccessor := by
  refine fun s hs => ⟨fun ⟨a, rest, hdec, hu⟩ => ?_, fun hn => ?_⟩
  · rw [stepRunsDecodedInstruction s _ rest hs hdec]
    exact exec_inp_unanswered a hu
  · rcases step_cases hs with ⟨_, _, _, e⟩ | ⟨_, _, _, _, _, e⟩ | ⟨_, _, _, _, _, _, e⟩ | ⟨i, rest, _, _, hdec, e⟩
    · exact ⟨_, e⟩
    · exact ⟨_, e⟩
    · exact ⟨_, e⟩
    · obtain ⟨_, t, e', _⟩ := exec_effect i (fetched (encode i).length s) fun a ha hu => hn ⟨a, rest, ha ▸ hdec, hu⟩
      exact ⟨t, e.trans e'⟩

/-! ### Operands outside the register band -/

/-- No word outside 32768..32775 names a register (R71). -/
theorem ofWord_ne_reg {w : Word} (h : w.toNat < 32768 ∨ 32775 < w.toNat) (i : Fin 8) : Operand.ofWord w ≠ .reg i := by
  intro e
  have hw := ofWord_eq_reg_iff.mp e
  omega

/-- An operand that names no register resolves to its own word, band H passing through (R72, D7). -/
theorem resolve_of_ne_reg {a : Operand} (s : State) (h : ∀ i, a ≠ .reg i) : resolve a s = a.toWord := by
  cases a with
  | reg i => exact absurd rfl (h i)
  | lit w | high w => rfl

/-- `RegSet` on an operand that names no register raises InvalidRegister, whatever is to be written (R74). -/
theorem regSet_raises {a : Operand} (h : ∀ i, a ≠ .reg i) (v : Word) (s : State) :
    ∃ t, regSet a v s = .next t ∧ Raised .invalidRegister s t := by
  rcases regSet_cases a v s with ⟨i, hi, _⟩ | ⟨_, e⟩
  · exact absurd hi (h i)
  · exact ⟨_, e, faultEntry_raised _ s⟩

/-- Settles O23: `ofWord` sorts exactly the register band into registers, and loses nothing of any other word. -/
theorem resolveIsRegisterOrWordItself : Obligations.ResolveIsRegisterOrWordItself := by
  refine fun w s => ⟨fun i hi => ?_, fun h => ?_⟩
  · rw [ofWord_eq_reg_iff.mpr hi, resolve_reg]
  · rw [resolve_of_ne_reg s (ofWord_ne_reg h), toWord_ofWord]

/-- Settles O24: a register write in the register band, `regSet_raises` outside. -/
theorem regSetWritesOnlyTheRegisterBand : Obligations.RegSetWritesOnlyTheRegisterBand := by
  refine fun w v s => ⟨fun i hi => ?_, fun h => regSet_raises (ofWord_ne_reg h) v s⟩
  rw [ofWord_eq_reg_iff.mpr hi]
  exact ⟨_, rfl, setReg_wroteReg i v s⟩

/-- Settles O25: in bands L and H the write-through is a store at the word, in bounds and out; in band R a register write. -/
theorem writeThroughFollowsTheThreeBands : Obligations.WriteThroughFollowsTheThreeBands := by
  refine fun w v s hw => ⟨fun h => ?_, fun i hi => ?_, fun h => ?_⟩
  · rw [ofWord_lit h]
    exact ⟨_, store_in v s h, setCell_wroteCell v h hw⟩
  · rw [ofWord_eq_reg_iff.mpr hi]
    exact ⟨_, rfl, setReg_wroteReg i v s⟩
  · rw [ofWord_high h]
    exact ⟨_, store_out (a := w) v s (by omega), faultEntry_raised _ s⟩

/-! ### Stack -/

/-- `Pop` takes back what `Push` put on top, and leaves the whole state as it was (R76, R77). -/
theorem popStk_withStk_cons (v : Word) (s : State) : popStk (withStk (v :: s.stk) s) = some (v, s) := rfl

/-- `pop` on the empty stack raises StackEmpty before the destination is looked at (R112). -/
theorem exec_pop_nil (a : Operand) {s : State} (h : s.stk = []) : exec (.pop a) s = .next (faultEntry .stackEmpty s) := by
  simp only [exec, execPop, popStk_nil h, raise]

/-- `ret` on the empty stack raises StackEmpty (R134). -/
theorem exec_ret_nil {s : State} (h : s.stk = []) : exec .ret s = .next (faultEntry .stackEmpty s) := by
  simp only [exec, execRet, popStk_nil h, raise]

/-- Settles O26: a push never fails under the default STACK_DEPTH, and `Pop` of an empty stack is the fault of both. -/
theorem popUndoesPushAndEmptyStackFaults : Obligations.PopUndoesPushAndEmptyStackFaults := by
  refine ⟨fun v s t e => ?_, fun a s h => ⟨popStk_nil h, ⟨_, exec_pop_nil a h, faultEntry_raised _ s⟩,
    ⟨_, exec_ret_nil h, faultEntry_raised _ s⟩⟩⟩
  rw [pushStk_eq] at e
  cases e
  exact ⟨rfl, popStk_withStk_cons v s⟩

/-! ### The instructions with a kind D destination -/

/-- `mod` by a non-zero word is a register write of the remainder (R142). -/
theorem exec_mod_of_ne_zero (a b : Operand) {c : Operand} {s : State} (h : resolve c s ≠ 0) :
    exec (.mod a b c) s = regSet a (modWord (resolve b s) (resolve c s)) s := by
  have hn : (resolve c s).toNat ≠ 0 := fun e => h (BitVec.eq_of_toNat_eq e)
  simp only [exec, execMod, if_neg hn]

/-- `rmem` from an address in bounds is a register write of the cell there (R150). -/
theorem exec_rmem_in (a : Operand) {b : Operand} {s : State} (h : (resolve b s).toNat ≤ 32767) :
    exec (.rmem a b) s = regSet a (s.mem.readCell (resolve b s).toNat) s := by
  simp only [exec, execRmem, load_eq_some_iff.mpr ⟨h, rfl⟩]

/-- `in` on a byte other than 13 consumes it and writes it, zero-extended, into the destination (R163). -/
theorem exec_inp_byte (a : Operand) {x : Byte} {rest : List InAnswer} {s : State} (h : s.inAnswers = .byte x :: rest)
    (hx : x ≠ 13) : exec (.inp a) s = regSet a (x.setWidth 16) (withIns rest s) := by
  simp only [exec, execInp, inByte, h]
  exact if_neg hx

/-- `in` on a 13 consumes the byte after it too, and still writes the 13 (R163, D11). -/
theorem exec_inp_carriageReturn (a : Operand) {y : Byte} {rest : List InAnswer} {s : State}
    (h : s.inAnswers = .byte 13 :: .byte y :: rest) : exec (.inp a) s = regSet a 13 (withIns rest s) := by
  simp [exec, execInp, inByte, h, withIns]

/-- Settles O46: each of the nine ends in `RegSet` on its destination, once its operands, address or bytes allow it. -/
theorem nineInstructionsNeedARegister : Obligations.NineInstructionsNeedARegister := by
  intro a b c s ha
  have raises := regSet_raises ha
  refine ⟨raises _ s, raises _ s, raises _ s, fun hc => ?_, raises _ s, raises _ s, raises _ s, fun hb => ?_,
    fun x rest hin hx => ?_, fun y rest hin => ?_⟩
  · rw [exec_mod_of_ne_zero a b hc]
    exact raises _ s
  · rw [exec_rmem_in a hb]
    exact raises _ s
  · rw [exec_inp_byte a hin hx]
    exact raises _ _
  · rw [exec_inp_carriageReturn a hin]
    exact raises _ _

end Sys2Proof.Machine
end

section
/-!
PROOFS. `halt` and `noop` (41_halt_noop.md): the step of an instruction that is one word long, and from it the two steps on
the opcodes 0 and 21.
-/

namespace Sys2Proof.Machine

/-- The opcode word is the first of the words at pc, and it is there only inside the memory (R50, R31). -/
theorem codeWords_of_opcodeAt {s : State} {w : Word} (h : opcodeAt s = some w) :
    s.pc.toNat ≤ 32767 ∧ ∃ ws, codeWords s = w :: ws := by
  obtain ⟨hpc, rfl⟩ := load_eq_some_iff.mp h
  exact ⟨hpc, _, cellsAt_succ (n := 3) hpc⟩

/-- The step on the opcode word of an instruction without operands executes it with that one word fetched; the fetch cannot
be cut off, for the opcode word already stands inside the memory (R82). -/
theorem step_of_operandless {s : State} {w : Word} {i : Instr} (hs : s.run = .running) (hop : opcodeAt s = some w)
    (hf : formatOf w = some (.f0 i)) : s.pc.toNat + 1 ≤ 32768 ∧ step s = exec i (fetched 1 s) := by
  obtain ⟨hpc, ws, hws⟩ := codeWords_of_opcodeAt hop
  have hdec : decode (codeWords s) = .instr i ws := by
    rw [hws]
    exact decode_cons_eq_instr_iff.mpr ⟨_, hf, rfl⟩
  obtain ⟨-, hops⟩ := opcode_operands_of_rebuild (os := []) hf rfl
  have hlen : (encode i).length = 1 := by simp [encode, hops]
  exact ⟨by omega, hlen ▸ stepRunsDecodedInstruction s i ws hs hdec⟩

/-- Settles O27: the step leaves `halted (fetched 1 s)`, and a halted core has no step. -/
theorem haltEndsTheRun : Obligations.HaltEndsTheRun := by
  refine ⟨fun s hs hop => ?_, fun s => ⟨halted s, rfl, rfl, rfl, rfl, rfl, rfl, rfl, ⟨rfl, rfl⟩, rfl, rfl, rfl⟩⟩
  obtain ⟨hpc, e⟩ := step_of_operandless hs hop rfl
  exact ⟨halted (fetched 1 s), e, rfl, fetched_pc_toNat hpc, rfl, rfl, rfl, rfl, ⟨rfl, rfl, rfl⟩,
    (stoppedCoreHasNoStep _).1 rfl⟩

/-- Settles O28: the step leaves `fetched 1 s`. -/
theorem noopOnlyAdvancesPc : Obligations.NoopOnlyAdvancesPc := by
  refine ⟨fun s hs hop => ?_, fun s => rfl⟩
  obtain ⟨hpc, e⟩ := step_of_operandless hs hop rfl
  exact ⟨fetched 1 s, e, fetched_pc_toNat hpc, rfl, rfl, rfl, ⟨rfl, rfl⟩, rfl, rfl, rfl⟩

end Sys2Proof.Machine
end

section
/-!
PROOFS. `set`, `push` and `pop` (42_set_push_pop.md), and the frame of `push`, `pop` and `wmem`: of a store, of a write
through a kind W destination, and from these of the instructions that end in them.
-/

namespace Sys2Proof.Machine

/-! ### set, push, pop -/

/-- Settles O29: on a register `RegSet` is a register write. -/
theorem setWritesTheResolvedSource : Obligations.SetWritesTheResolvedSource :=
  fun i b s => ⟨_, rfl, setReg_wroteReg i (resolve b s) s⟩

/-- Under the default STACK_DEPTH `push` never fails (R111, R15; log entry 7). -/
theorem exec_push (a : Operand) (s : State) : exec (.push a) s = .next (withStk (resolve a s :: s.stk) s) := rfl

/-- Settles O30: replacing the stack replaces nothing else. -/
theorem pushPutsTheResolvedSourceOnTop : Obligations.PushPutsTheResolvedSourceOnTop :=
  fun a s => ⟨_, exec_push a s, rfl, rfl, rfl, fun _ => rfl, ⟨rfl, rfl⟩, ⟨rfl, rfl⟩, rfl, rfl, rfl⟩

/-- Settles O31: the top is written through in the state without it, so each band acts on `withStk rest s`, the fault of
band H too (D14). -/
theorem popMovesTheTopToItsDestination : Obligations.PopMovesTheTopToItsDestination := by
  refine fun v rest s hs => ⟨fun i => ?_, fun w hw hmem => ?_, fun w hw => ?_⟩ <;> rw [exec_pop_cons _ hs]
  · exact ⟨_, rfl, setReg_wroteReg i v _⟩
  · exact ⟨_, store_in v _ hw, setCell_wroteCell v hw hmem⟩
  · exact ⟨_, store_out (a := w) v _ (by omega), faultEntry_raised _ _⟩

/-! ### Frames -/

section
variable {s t : State} {v : Word}

/-- The frame of a store: no cell but the one at an address in bounds, no register, no stack entry, not pc (R32, R207). -/
theorem store_frame {a : Word} (e : store a v s = .next t) :
    SameMemoryBut (if inBounds a then some a else none) s t ∧ t.regs = s.regs ∧ t.stk = s.stk ∧ t.pc = s.pc ∧
      SameLatches s t ∧ SameBoundary s t ∧ SameRunOrRaised s t := by
  rcases store_cases a v s with ⟨ha, hst⟩ | ⟨-, hst⟩ <;> rw [hst] at e <;> cases e
  · refine ⟨fun b hb => readCell_setCell_ne v s ?_, rfl, rfl, rfl, ⟨rfl, rfl⟩, ⟨rfl, rfl, rfl⟩, .inl ⟨rfl, rfl⟩⟩
    rintro rfl
    simp [inBounds, ha] at hb
  · exact ⟨fun _ _ => rfl, rfl, rfl, rfl, ⟨rfl, rfl⟩, ⟨rfl, rfl, rfl⟩, .inr ⟨rfl, _, rfl⟩⟩

/-- The frame of a write-through: a register write in the register band, a store outside it (R75). -/
theorem writeThrough_frame {w : Operand} (e : writeThrough w v s = .next t) :
    SameRegsBut w s t ∧ SameMemoryBut (writeThroughAddress w) s t ∧ t.stk = s.stk ∧ t.pc = s.pc ∧ SameLatches s t ∧
      SameBoundary s t ∧ SameRunOrRaised s t := by
  cases w with
  | reg i =>
    cases e
    obtain ⟨-, hregs, -⟩ := setReg_wroteReg i v s
    exact ⟨hregs, fun _ _ => rfl, rfl, rfl, ⟨rfl, rfl⟩, ⟨rfl, rfl, rfl⟩, .inl ⟨rfl, rfl⟩⟩
  | lit a | high a =>
    obtain ⟨hmem, hregs, hrest⟩ := store_frame (a := a) e
    exact ⟨fun j _ => by simp only [getReg, hregs], hmem, hrest⟩

/-- The frame of `pop`: the empty stack only faults, and the top of any other is gone before it is written through
(R112). -/
theorem exec_pop_frame {a : Operand} (e : exec (.pop a) s = .next t) :
    SameRegsBut a s t ∧ SameMemoryBut (writeThroughAddress a) s t ∧ t.stk = s.stk.tail ∧ t.pc = s.pc ∧ SameLatches s t ∧
      SameBoundary s t ∧ SameRunOrRaised s t := by
  cases hs : s.stk with
  | nil =>
    rw [exec_pop_nil a hs] at e
    cases e
    exact ⟨fun _ _ => rfl, fun _ _ => rfl, hs, rfl, ⟨rfl, rfl⟩, ⟨rfl, rfl, rfl⟩, .inr ⟨rfl, _, rfl⟩⟩
  | cons top rest =>
    rw [exec_pop_cons a hs] at e
    exact writeThrough_frame e

end

/-- Settles O57: `push` replaces the stack alone, `pop` writes through and `wmem` is a store. -/
theorem pushPopWmemFrame : Obligations.PushPopWmemFrame := by
  refine fun a b s t => ⟨fun e => ?_, exec_pop_frame, fun e => ?_⟩
  · rw [exec_push] at e
    cases e
    exact ⟨rfl, fun _ => rfl, rfl, ⟨rfl, rfl⟩, ⟨rfl, rfl, rfl⟩, rfl, rfl⟩
  · simpa only [inBounds_iff] using store_frame e

end Sys2Proof.Machine
end

section
/-!
PROOFS. `eq` and `gt` (43_eq_gt.md): the word each writes is its comparison's, and the rest of the instruction is the
write-through of that word.
-/

namespace Sys2Proof.Machine

/-- The three bands of a write-through, by the operand that the decoder makes of the word: a register write, a store in
bounds, a store out of bounds (R75). -/
theorem writeThrough_by_band (v : Word) {s : State} (hmem : s.mem.wf = true) :
    (∀ i, ∃ t, writeThrough (.reg i) v s = .next t ∧ WroteReg i v s t) ∧
      (∀ w : Word, w.toNat ≤ 32767 → ∃ t, writeThrough (.lit w) v s = .next t ∧ WroteCell w v s t) ∧
      (∀ w : Word, 32776 ≤ w.toNat → ∃ t, writeThrough (.high w) v s = .next t ∧ Raised .invalidMemory s t) := by
  refine ⟨fun i => ⟨_, rfl, setReg_wroteReg i v s⟩, fun w hw => ?_, fun w hw => ?_⟩
  all_goals obtain ⟨hlit, -, hhigh⟩ := writeThroughFollowsTheThreeBands w v s hmem
  · simpa only [ofWord_lit hw] using hlit hw
  · simpa only [ofWord_high hw] using hhigh hw

/-- `eq` writes 1 or 0 through its destination, by whether the resolved words are equal (R120). -/
theorem exec_eq (a b c : Operand) (s : State) :
    exec (.eq a b c) s = writeThrough a (if resolve b s = resolve c s then 1 else 0) s := by
  simp only [exec, execEq, eqWord_eq_ite]

/-- `gt` writes 1 or 0 through its destination, by whether the first resolved word is the greater (R121). -/
theorem exec_gt (a b c : Operand) (s : State) :
    exec (.gt a b c) s = writeThrough a (if (resolve c s).toNat < (resolve b s).toNat then 1 else 0) s := by
  simp only [exec, execGt, gtWord_eq_ite]

/-- Settles O32: `exec_eq` in each band of the write-through. -/
theorem eqWritesOneExactlyOnEqualWords : Obligations.EqWritesOneExactlyOnEqualWords := by
  rintro b c s _ hmem rfl
  simp only [exec_eq]
  exact writeThrough_by_band _ hmem

/-- Settles O33: `exec_gt` in each band of the write-through. -/
theorem gtComparesUnsigned : Obligations.GtComparesUnsigned := by
  rintro b c s _ hmem rfl
  simp only [exec_gt]
  exact writeThrough_by_band _ hmem

/-- Settles O56: both are a write-through, so its frame is theirs. -/
theorem comparisonsFrame : Obligations.ComparisonsFrame := by
  intro a b c s t e
  simp only [exec_eq, exec_gt] at e
  rcases e with e | e
  all_goals
    obtain ⟨hregs, hcells, hstk, hpc, hrest⟩ := writeThrough_frame e
    exact ⟨hregs, hcells, hpc, hstk, hrest⟩

end Sys2Proof.Machine
end

section
/-!
PROOFS. `jmp`, `jt`, `jf`, `call` and `ret` (44_jumps_calls.md): each is `SetPC` on a target of its own, `call` after a push
and `ret` after a pop, so `SetPC` is settled first and the instructions by their equations.
-/

namespace Sys2Proof.Machine

/-! ### SetPC -/

/-- `SetPC` to a cell (R78). -/
theorem setPC_in {a : Word} (s : State) (ha : a.toNat ≤ 32767) : setPC a s = .next (withPC a s) := by
  rcases setPC_cases a s with ⟨_, e⟩ | ⟨h, _⟩
  · exact e
  · omega

/-- `SetPC` above the last cell (R78). -/
theorem setPC_out {a : Word} (s : State) (ha : 32767 < a.toNat) : setPC a s = .next (faultEntry .invalidMemory s) := by
  rcases setPC_cases a s with ⟨h, _⟩ | ⟨_, e⟩
  · omega
  · exact e

/-- Both sides of the bound: the jump and nothing else, or InvalidMemory with pc unchanged (R78). -/
theorem setPC_goes_or_raises (a : Word) (s : State) :
    (a.toNat ≤ 32767 → ∃ t, setPC a s = .next t ∧ WentTo a s t) ∧
      (32767 < a.toNat → ∃ t, setPC a s = .next t ∧ Raised .invalidMemory s t) :=
  ⟨fun ha => ⟨_, setPC_in s ha, withPC_wentTo a s⟩, fun ha => ⟨_, setPC_out s ha, faultEntry_raised _ s⟩⟩

/-! ### What each instruction comes to -/

section
variable (a b : Operand) (s : State)

theorem exec_jmp : exec (.jmp a) s = setPC (resolve a s) s := rfl

/-- `jt` goes on past a zero condition and else sets pc to its raw target (R131). -/
theorem exec_jt : exec (.jt a b) s = if resolve a s = 0 then .next s else setPC b.toWord s := by
  simp only [exec, execJt, condTrue_iff, jumpRaw, ne_eq, ite_not]

/-- `jf` sets pc to its raw target on a zero condition and else goes on (R132). -/
theorem exec_jf : exec (.jf a b) s = if resolve a s = 0 then setPC b.toWord s else .next s := by
  simp only [exec, execJf, condTrue_iff, jumpRaw, ne_eq, ite_not]

/-- Under the default STACK_DEPTH the push of `call` never fails (R133, R15; log entry 7). -/
theorem exec_call : exec (.call a) s = setPC (resolve a s) (withStk (s.pc :: s.stk) s) := rfl

end

/-- `ret` on a stack with a top sets pc to that word in the state without it (R134). -/
theorem exec_ret_cons {v : Word} {rest : List Word} {s : State} (h : s.stk = v :: rest) :
    exec .ret s = setPC v (withStk rest s) := by
  simp only [exec, execRet, popStk_cons h]

/-- Settles O34: `SetPC` on the resolved target. -/
theorem jmpGoesToTheResolvedTarget : Obligations.JmpGoesToTheResolvedTarget := by
  intro a s
  rw [exec_jmp]
  exact setPC_goes_or_raises (resolve a s) s

/-- Settles O35: the condition decides whether there is a `SetPC`, the target what becomes of it. -/
theorem jtJumpsExactlyOnNonzero : Obligations.JtJumpsExactlyOnNonzero := by
  intro a b s
  obtain ⟨hgoes, hraises⟩ := setPC_goes_or_raises b.toWord s
  rw [exec_jt]
  refine ⟨fun hc => if_pos hc, fun hc => ?_, fun hc => ?_⟩ <;> rw [if_neg hc]
  · exact hgoes
  · exact hraises

/-- Settles O36: as for `jt`, with the branches exchanged. -/
theorem jfJumpsExactlyOnZero : Obligations.JfJumpsExactlyOnZero := by
  intro a b s
  obtain ⟨hgoes, hraises⟩ := setPC_goes_or_raises b.toWord s
  rw [exec_jf]
  refine ⟨fun hc => if_neg hc, fun hc => ?_, fun hc => ?_⟩ <;> rw [if_pos hc]
  · exact hgoes
  · exact hraises

/-- Settles O37: the target is checked in the state with the return address on top. -/
theorem callPushesTheReturnAddress : Obligations.CallPushesTheReturnAddress := by
  intro a s
  rw [exec_call]
  exact setPC_goes_or_raises (resolve a s) _

/-- Settles O38: the popped word is checked in the state without it. -/
theorem retGoesToThePoppedWord : Obligations.RetGoesToThePoppedWord := by
  intro v rest s hs
  rw [exec_ret_cons hs]
  exact setPC_goes_or_raises v _

/-- Settles O39: `ret` pops what `call` pushed, the pc of `s`, so the two moves of pc and of the stack cancel. -/
theorem retUndoesCall : Obligations.RetUndoesCall := by
  intro a s t ha hpc e
  rw [exec_call, setPC_in _ ha] at e
  cases e
  calc exec .ret (withPC (resolve a s) (withStk (s.pc :: s.stk) s))
    _ = setPC s.pc (withStk s.stk (withPC (resolve a s) (withStk (s.pc :: s.stk) s))) := exec_ret_cons rfl
    _ = .next (withPC s.pc (withStk s.stk (withPC (resolve a s) (withStk (s.pc :: s.stk) s)))) := setPC_in _ hpc
    _ = .next s := rfl

/-! ### Frame -/

/-- What no control transfer touches: everything but pc and the stack, and run state and record but for a fault. -/
def SameButPcAndStack (s t : State) : Prop :=
  t.regs = s.regs ∧ SameMemory s t ∧ SameLatches s t ∧ SameBoundary s t ∧ SameRunOrRaised s t

section
variable {s t : State}

theorem SameButPcAndStack.refl (s : State) : SameButPcAndStack s s :=
  ⟨rfl, fun _ => rfl, ⟨rfl, rfl⟩, ⟨rfl, rfl, rfl⟩, .inl ⟨rfl, rfl⟩⟩

theorem faultEntry_sameButPcAndStack (k : FaultKind) (s : State) : SameButPcAndStack s (faultEntry k s) :=
  ⟨rfl, fun _ => rfl, ⟨rfl, rfl⟩, ⟨rfl, rfl, rfl⟩, .inr ⟨rfl, k, rfl⟩⟩

/-- The frame of `SetPC` after the stack was replaced, by a push, by a pop or by itself. -/
theorem setPC_withStk_frame {v : Word} {l : List Word} (e : setPC v (withStk l s) = .next t) :
    t.stk = l ∧ SameButPcAndStack s t := by
  rcases setPC_cases v (withStk l s) with ⟨-, h⟩ | ⟨-, h⟩ <;> rw [h] at e <;> cases e
  · exact ⟨rfl, .refl s⟩
  · exact ⟨rfl, faultEntry_sameButPcAndStack _ s⟩

/-- The frame of the jumps: pc alone when one is taken, nothing when `jt` or `jf` is not (R130, R131, R132). -/
theorem exec_jump_frame (a b : Operand)
    (e : exec (.jmp a) s = .next t ∨ exec (.jt a b) s = .next t ∨ exec (.jf a b) s = .next t) :
    t.stk = s.stk ∧ SameButPcAndStack s t := by
  have taken {v : Word} (h : setPC v s = .next t) : t.stk = s.stk ∧ SameButPcAndStack s t := setPC_withStk_frame h
  have untaken (h : (.next s : Result) = .next t) : t.stk = s.stk ∧ SameButPcAndStack s t := by
    cases h
    exact ⟨rfl, .refl s⟩
  rw [exec_jmp, exec_jt, exec_jf] at e
  rcases e with e | e | e
  · exact taken e
  · split at e
    · exact untaken e
    · exact taken e
  · split at e
    · exact taken e
    · exact untaken e

/-- The frame of `call`: the return address stays pushed even if the target is no address (R133). -/
theorem exec_call_frame {a : Operand} (e : exec (.call a) s = .next t) : t.stk = s.pc :: s.stk ∧ SameButPcAndStack s t :=
  setPC_withStk_frame e

/-- The frame of `ret`: the top stays popped even if it is no address, and an empty stack only faults (R134). -/
theorem exec_ret_frame (e : exec .ret s = .next t) : t.stk = s.stk.tail ∧ SameButPcAndStack s t := by
  cases hs : s.stk with
  | nil =>
    rw [exec_ret_nil hs] at e
    cases e
    exact ⟨hs, faultEntry_sameButPcAndStack _ s⟩
  | cons v rest =>
    rw [exec_ret_cons hs] at e
    exact setPC_withStk_frame e

end

/-- Settles O58: the frame of each of the five, its stack first. -/
theorem controlTransferFrame : Obligations.ControlTransferFrame := by
  refine fun a b s t => ⟨fun e => (exec_jump_frame a b e).1, fun e => (exec_call_frame e).1,
    fun e => (exec_ret_frame e).1, ?_⟩
  rintro (e | e | e | e | e)
  · exact (exec_jump_frame a b (.inl e)).2
  · exact (exec_jump_frame a b (.inr (.inl e))).2
  · exact (exec_jump_frame a b (.inr (.inr e))).2
  · exact (exec_call_frame e).2
  · exact (exec_ret_frame e).2

end Sys2Proof.Machine
end

section
/-!
PROOFS. `add`, `mult`, `mod`, `and`, `or` and `not` (45_alu.md): the number each result word stands for. The rest of
each instruction is `RegSet` of that word, which on a register is a register write.
-/

namespace Sys2Proof.Machine

/-! ### Result words -/

/-- A remainder below 32768 is a word, so it is narrowed to 16 bits without loss. -/
theorem toNat_ofNat_mod_32768 (n : Nat) : (BitVec.ofNat 16 (n % 32768)).toNat = n % 32768 :=
  Nat.mod_eq_of_lt (by omega)

theorem addWord_toNat (b c : Word) : (addWord b c).toNat = (b.toNat + c.toNat) % 32768 := toNat_ofNat_mod_32768 _

theorem multWord_toNat (b c : Word) : (multWord b c).toNat = (b.toNat * c.toNat) % 32768 := toNat_ofNat_mod_32768 _

/-- A remainder is at most its dividend, so it is a word and is not reduced further (R142, C3). -/
theorem modWord_toNat (b c : Word) : (modWord b c).toNat = b.toNat % c.toNat :=
  Nat.mod_eq_of_lt (lt_of_le_of_lt (Nat.mod_le _ _) b.isLt)

/-- The mask keeps the complement modulo 32768: bit 15 of the value is ignored (R145). -/
theorem notWord_toNat (b : Word) : (notWord b).toNat = 32767 - b.toNat % 32768 := by
  have hb : b.toNat < 65536 := b.isLt
  calc (notWord b).toNat
    _ = (65535 - b.toNat) &&& (2 ^ 15 - 1) := by simp [notWord]
    _ = (65535 - b.toNat) % 2 ^ 15 := Nat.and_two_pow_sub_one_eq_mod _ 15
    _ = 32767 - b.toNat % 32768 := by omega

/-! ### Instructions -/

/-- `mod` by zero raises ModByZero before the destination is looked at (R142, D8, D9). -/
theorem exec_mod_of_eq_zero (a b : Operand) {c : Operand} {s : State} (h : resolve c s = 0) :
    exec (.mod a b c) s = .next (faultEntry .modByZero s) := by
  have hn : (resolve c s).toNat = 0 := congrArg BitVec.toNat h
  simp only [exec, execMod, if_pos hn, raise]

/-- Settles O40: a register write of `addWord`. -/
theorem addWritesTheSumModulo32768 : Obligations.AddWritesTheSumModulo32768 :=
  fun i b c s => ⟨_, _, rfl, setReg_wroteReg i _ s, addWord_toNat (resolve b s) (resolve c s)⟩

/-- Settles O41: a register write of `multWord`. -/
theorem multWritesTheProductModulo32768 : Obligations.MultWritesTheProductModulo32768 :=
  fun i b c s => ⟨_, _, rfl, setReg_wroteReg i _ s, multWord_toNat (resolve b s) (resolve c s)⟩

/-- Settles O42: a register write of `modWord`, which is below the divisor, differs from the dividend by a multiple of
it and does not exceed the dividend. -/
theorem modWritesTheUnsignedRemainder : Obligations.ModWritesTheUnsignedRemainder := by
  intro i b c s hc
  have hpos : 0 < (resolve c s).toNat := Nat.pos_of_ne_zero fun h => hc (BitVec.eq_of_toNat_eq h)
  refine ⟨_, _, exec_mod_of_ne_zero _ b hc, setReg_wroteReg i _ s, ?_⟩
  rw [modWord_toNat]
  exact ⟨Nat.mod_lt _ hpos, Nat.dvd_sub_mod _, Nat.mod_le _ _⟩

/-- Settles O44: register writes of the words' own `&&&` and `|||`, with no mask after them. -/
theorem andOrActOnAllSixteenBits : Obligations.AndOrActOnAllSixteenBits :=
  fun i _ _ s => ⟨⟨_, _, rfl, setReg_wroteReg i _ s, fun _ _ => BitVec.getLsbD_and⟩,
    ⟨_, _, rfl, setReg_wroteReg i _ s, fun _ _ => BitVec.getLsbD_or⟩⟩

/-- Settles O45: a register write of `notWord`. -/
theorem notInvertsFifteenBits : Obligations.NotInvertsFifteenBits :=
  fun i b s => ⟨_, _, rfl, setReg_wroteReg i _ s, notWord_toNat (resolve b s)⟩

/-- Settles O43: the fault whatever the destination is, and nothing but run state and record is written. -/
theorem modByZeroFaultsBeforeTheDestination : Obligations.ModByZeroFaultsBeforeTheDestination :=
  fun a b _ s hc => ⟨_, exec_mod_of_eq_zero a b hc, faultEntry_raised _ s⟩

end Sys2Proof.Machine
end

section
/-!
PROOFS. `rmem` and `wmem` (46_rmem_wmem.md): `rmem` is a load before a register write, `wmem` a store, each at the resolved
operand.
-/

namespace Sys2Proof.Machine

/-- `rmem` from an address out of bounds raises InvalidMemory before the destination is looked at (R150, D9). -/
theorem exec_rmem_out (a : Operand) {b : Operand} {s : State} (h : 32767 < (resolve b s).toNat) :
    exec (.rmem a b) s = .next (faultEntry .invalidMemory s) := by
  simp only [exec, execRmem, load_eq_none_iff.mpr h, raise]

/-- `wmem` stores its second operand at its first, both resolved (R151, R152). -/
theorem exec_wmem (a b : Operand) (s : State) : exec (.wmem a b) s = store (resolve a s) (resolve b s) s := rfl

/-- Settles O47: in bounds a register write of the loaded cell, out of bounds the fault whatever the destination is. -/
theorem rmemLoadsTheWholeCell : Obligations.RmemLoadsTheWholeCell := by
  refine fun b s => ⟨fun hb i => ?_, fun hb a => ?_⟩
  · rw [exec_rmem_in (.reg i) hb]
    exact ⟨_, rfl, setReg_wroteReg i _ s⟩
  · exact ⟨_, exec_rmem_out a hb, faultEntry_raised _ s⟩

/-- Settles O48: the two outcomes of a store, `store_in` and `store_out`. -/
theorem wmemStoresAtTheResolvedAddress : Obligations.WmemStoresAtTheResolvedAddress := by
  intro a b s hw
  rw [exec_wmem]
  refine ⟨fun ha => ?_, fun ha => ?_⟩
  · exact ⟨_, store_in _ s ha, setCell_wroteCell _ ha hw⟩
  · exact ⟨_, store_out _ s ha, faultEntry_raised _ s⟩

end Sys2Proof.Machine
end

section
/-!
PROOFS. `out` and `in` (47_out_in.md): what each comes to for every answer of the sink and of the source, and the frame that
the two share.
-/

namespace Sys2Proof.Machine

/-! ### out -/

/-- The low 8 bits of a word are its remainder modulo 256 (R5). -/
theorem lowByte_toNat (w : Word) : (lowByte w).toNat = w.toNat % 256 := by
  simp [lowByte]

/-- `out` presents the low byte of its resolved operand to the sink (R162). -/
theorem exec_out (a : Operand) (s : State) : exec (.out a) s = outByte (lowByte (resolve a s)) s := rfl

/-- A failed answer of the sink is consumed and raises WriteError, whatever the byte (R161). -/
theorem outByte_fails (b : Byte) {rest : List OutAnswer} {s : State} (h : s.outAnswers = .failed :: rest) :
    outByte b s = .next (faultEntry .writeError (rejectByte rest s)) := by
  simp only [outByte, h, raise]

/-- Settles O50: `outByte_accepts` and `outByte_fails` on the low byte of the operand. -/
theorem outAppendsTheLowByte : Obligations.OutAppendsTheLowByte := by
  refine fun a s => ⟨fun h => ?_, fun rest h => ?_⟩ <;> rw [exec_out]
  · exact ⟨_, _, outByte_accepts _ h, rfl, lowByte_toNat _, rfl, rfl, rfl, rfl, rfl, fun _ => rfl, ⟨rfl, rfl⟩, ⟨rfl, rfl⟩⟩
  · exact ⟨_, outByte_fails _ h, faultEntry_raised _ _⟩

/-! ### in -/

/-- A failed answer to the first read raises ReadError before the destination is looked at (R160, D9, D12). -/
theorem exec_inp_failed (a : Operand) {rest : List InAnswer} {s : State} (h : s.inAnswers = .failed :: rest) :
    exec (.inp a) s = .next (faultEntry .readError (withIns rest s)) := by
  simp only [exec, execInp, inByte, h, raise]

/-- A failed answer to the read after a 13 raises ReadError too, and the 13 is consumed (R163, D9, D12). -/
theorem exec_inp_carriageReturn_failed (a : Operand) {rest : List InAnswer} {s : State}
    (h : s.inAnswers = .byte 13 :: .failed :: rest) :
    exec (.inp a) s = .next (faultEntry .readError (withIns rest s)) := by
  simp [exec, execInp, inByte, h, withIns, raise]

/-- Settles O51: a register write of the byte, which 16 bits hold without loss. -/
theorem inWritesTheByteZeroExtended : Obligations.InWritesTheByteZeroExtended := by
  intro i b rest s hin hb
  rw [exec_inp_byte (.reg i) hin hb]
  exact ⟨_, _, rfl, setReg_wroteReg i _ _, BitVec.toNat_setWidth_of_le (by decide)⟩

/-- Settles O52: a register write of 13 with both bytes consumed. -/
theorem inDropsTheByteAfterCarriageReturn : Obligations.InDropsTheByteAfterCarriageReturn := by
  intro i c rest s hin
  rw [exec_inp_carriageReturn (.reg i) hin]
  exact ⟨_, rfl, setReg_wroteReg i 13 _⟩

/-- Settles O53: fault entry with the answers read so far consumed, at either read. -/
theorem inRaisesReadErrorOnFailedAnswers : Obligations.InRaisesReadErrorOnFailedAnswers :=
  fun a _ _ => ⟨fun h => ⟨_, exec_inp_failed a h, faultEntry_raised _ _⟩,
    fun h => ⟨_, exec_inp_carriageReturn_failed a h, faultEntry_raised _ _⟩⟩

/-! ### Frame -/

section
variable {i : Instr} {s u t : State}

/-- An instruction without a destination writes no register (R12). -/
theorem Ending.regs_of_no_destination (h : Ending i u t) (hd : destination i = none) : t.regs = u.regs := by
  cases h with
  | reg _ _ hr => simp [hd] at hr
  | done | halt _ | fault _ _ | cell _ _ _ _ | jump _ _ _ | wrote _ _ _ => rfl

/-- Nothing that happens before the last statement shows in run state, record or latches, so a fault raised there is one
raised from the start. -/
theorem Before.sameRunOrRaised (h : Before i s u) (hr : SameRunOrRaised u t) : SameRunOrRaised s t := by
  simpa only [SameRunOrRaised, SameRun, h.run, h.fault, h.ia, h.opw] using hr

/-- The frame that the two I/O opcodes share: a transaction with the boundary may come before the last statement, and no
cell is stored to and no jump taken at the end. -/
theorem frame_of_io (hb : Before i s u) (he : Ending i u t) (hi : opcode i = 19 ∨ opcode i = 20)
    (hs : storeAddress i s = none) (hc : transfersControl i u = false) :
    t.pc = s.pc ∧ SameMemory s t ∧ t.stk = s.stk ∧ SameLatches s t ∧ SameRunOrRaised s t := by
  have hstk : u.stk = s.stk := hb.stk_cases.resolve_right (by rcases hi with h | h <;> simp [h])
  have hhalt : i ≠ .halt := by
    rintro rfl
    simp [opcode] at hi
  exact ⟨(he.pc hc).trans hb.pc, fun a => sameMemoryBut_of_effect hb he a (by simp [hs]), he.stk.trans hstk,
    ⟨he.ia.trans hb.ia, he.opw.trans hb.opw⟩, hb.sameRunOrRaised (he.sameRunOrRaised hhalt)⟩

/-- The frame of `out`: it has no destination and never asks the source (R162). -/
theorem exec_out_frame {a : Operand} (e : exec (.out a) s = .next t) :
    t.regs = s.regs ∧ t.inAnswers = s.inAnswers ∧
      t.pc = s.pc ∧ SameMemory s t ∧ t.stk = s.stk ∧ SameLatches s t ∧ SameRunOrRaised s t := by
  obtain ⟨u, hb, he⟩ := effect_of_exec e
  have hin : u.inAnswers = s.inAnswers := hb.inAnswers_cases.resolve_right (by simp [opcode])
  exact ⟨(he.regs_of_no_destination rfl).trans hb.regs, he.inAnswers.trans hin,
    frame_of_io hb he (.inl rfl) rfl rfl⟩

/-- The frame of `in`: its operand is its destination, and it never reaches the sink (R163). -/
theorem exec_inp_frame {a : Operand} (e : exec (.inp a) s = .next t) :
    SameRegsBut a s t ∧ t.outAnswers = s.outAnswers ∧ t.output = s.output ∧
      t.pc = s.pc ∧ SameMemory s t ∧ t.stk = s.stk ∧ SameLatches s t ∧ SameRunOrRaised s t := by
  obtain ⟨u, hb, he⟩ := effect_of_exec e
  have h19 : opcode (.inp a) ≠ 19 := by simp [opcode]
  obtain ⟨-, houts, hout⟩ := he.sameBoundary h19
  have hregs : SameRegsBut a s t := fun j hj => (he.sameRegsBut rfl j hj).trans (by simp only [getReg, hb.regs])
  exact ⟨hregs, houts.trans (hb.outAnswers h19), hout.trans hb.output, frame_of_io hb he (.inr rfl) rfl rfl⟩

end

/-- Settles O59: the parts of the two frames, each under the instruction it is asked of. -/
theorem outInFrame : Obligations.OutInFrame := by
  refine fun a s t => ⟨fun e => ?_, fun e => ?_, ?_⟩
  · obtain ⟨hregs, hin, hpc, -⟩ := exec_out_frame e
    exact ⟨hregs, hpc, hin⟩
  · obtain ⟨hregs, houts, hout, hpc, -⟩ := exec_inp_frame e
    exact ⟨hregs, hpc, houts, hout⟩
  · rintro (e | e)
    · obtain ⟨-, -, -, hrest⟩ := exec_out_frame e
      exact hrest
    · obtain ⟨-, -, -, -, hrest⟩ := exec_inp_frame e
      exact hrest

end Sys2Proof.Machine
end

section
/-!
PROOFS. Fault entry (60_exceptions.md): what a step that ends Faulted leaves as it was.
-/

namespace Sys2Proof.Machine

/-- An instruction of a running core that ends Faulted has fault entry as its whole ending: whatever it has written by then
it wrote before its last statement (R207, D14). -/
theorem Ending.eq_faultEntry_of_faulted {i : Instr} {u t : State} (h : Ending i u t) (hu : u.run = .running)
    (ht : t.run = .faulted) : ∃ k, t = faultEntry k u := by
  rcases h.raises_or_keeps_record hu with ⟨k, _, hk⟩ | ⟨hr, _⟩
  · exact ⟨k, hk⟩
  · exact absurd ht hr

/-- Settles O12: fault entry touches neither registers, memory nor trace, and nothing that comes before it does: not the
fetch (`Latched`), and of an instruction not what precedes its last statement (`Before`). -/
theorem faultingStepKeepsRegistersAndMemory : Obligations.FaultingStepKeepsRegistersAndMemory := by
  intro s t hs e ht
  rcases step_faults_or_executes e with ⟨k, u, _, _, hl, _, rfl⟩ | ⟨i, _, u, _, _, _, hb, he⟩
  · obtain ⟨_, _, hout⟩ := hl.boundary
    exact ⟨hl.regs, hl.mem, hout⟩
  · obtain ⟨k, rfl⟩ := he.eq_faultEntry_of_faulted (hb.run.trans hs) ht
    exact ⟨hb.regs, hb.mem, hb.output⟩

end Sys2Proof.Machine
end
